-- ==== Sys2Proof/Word.lean ====
section
/-! DEFINITION. The word types of the block (00_scope.md R8, R10). All values are unsigned. MEM_SIZE, 4096, and the
80 bytes of the font stand as literals where a rule names them. -/

namespace Sys2Proof

/-- An 8-bit value: a byte of memory, a general register, a timer. -/
abbrev Byte := BitVec 8

/-- A 16-bit value: an instruction word, the program counter, the index register, a return address. -/
abbrev Word := BitVec 16

/-- A 4-bit field of an instruction word: a register number or a sprite height. -/
abbrev Nibble := BitVec 4

/-- A 12-bit address literal of an instruction word. -/
abbrev Addr12 := BitVec 12

/-- The number of VF, the flag register (R8, R23). -/
abbrev flagReg : Nibble := 0xF#4

end Sys2Proof
end

