-- ==== Sys2Proof/Syntax.lean ====
section
/-! DEFINITION. The instructions: one constructor per row of spec/opcode_table.json (30_encoding.md R75, R79). -/

namespace Sys2Proof

/-- An instruction with its operand fields (R71, R73). x and y are register numbers, nn an 8-bit immediate, nnn a
12-bit address, n a 4-bit count. The x field of BNNN is the top nibble of its nnn. -/
inductive Instr where
  /-- 0NNN but for 00E0 and 00EE. -/
  | sys (nnn : Addr12)
  /-- 00E0. -/
  | cls
  /-- 00EE. -/
  | ret
  /-- 1NNN. -/
  | jp (nnn : Addr12)
  /-- 2NNN. -/
  | call (nnn : Addr12)
  /-- 3XNN. -/
  | seImm (x : Nibble) (nn : Byte)
  /-- 4XNN. -/
  | sneImm (x : Nibble) (nn : Byte)
  /-- 5XY0. -/
  | seReg (x y : Nibble)
  /-- 6XNN. -/
  | ldImm (x : Nibble) (nn : Byte)
  /-- 7XNN. -/
  | addImm (x : Nibble) (nn : Byte)
  /-- 8XY0. -/
  | ldReg (x y : Nibble)
  /-- 8XY1. -/
  | orReg (x y : Nibble)
  /-- 8XY2. -/
  | andReg (x y : Nibble)
  /-- 8XY3. -/
  | xorReg (x y : Nibble)
  /-- 8XY4. -/
  | addReg (x y : Nibble)
  /-- 8XY5. -/
  | sub (x y : Nibble)
  /-- 8XY6. -/
  | shr (x y : Nibble)
  /-- 8XY7. -/
  | subn (x y : Nibble)
  /-- 8XYE. -/
  | shl (x y : Nibble)
  /-- 9XY0. -/
  | sneReg (x y : Nibble)
  /-- ANNN. -/
  | ldI (nnn : Addr12)
  /-- BNNN. -/
  | jpV0 (nnn : Addr12)
  /-- CXNN. -/
  | rnd (x : Nibble) (nn : Byte)
  /-- DXYN. -/
  | drw (x y n : Nibble)
  /-- EX9E. -/
  | skp (x : Nibble)
  /-- EXA1. -/
  | sknp (x : Nibble)
  /-- FX07. -/
  | ldVxDt (x : Nibble)
  /-- FX0A. -/
  | ldVxK (x : Nibble)
  /-- FX15. -/
  | ldDtVx (x : Nibble)
  /-- FX18. -/
  | ldStVx (x : Nibble)
  /-- FX1E. -/
  | addI (x : Nibble)
  /-- FX29. -/
  | ldF (x : Nibble)
  /-- FX33. -/
  | ldB (x : Nibble)
  /-- FX55. -/
  | ldMemVx (x : Nibble)
  /-- FX65. -/
  | ldVxMem (x : Nibble)
  /-- 5XYn with n != 0: unsettled, governed by LOOSE_5_9 (R79). -/
  | loose5 (x y n : Nibble)
  /-- 9XYn with n != 0: unsettled, governed by LOOSE_5_9 (R79). -/
  | loose9 (x y n : Nibble)
  deriving DecidableEq, Repr

end Sys2Proof
end

