-- ==== Sys2Proof/WellFormed.lean ====
section
/-! DEFINITION. Which terms of Instr some word stands for: the words 00E0 and 00EE are CLS and RET, never SYS
(30_encoding.md R77), and the unsettled rows have a nonzero low nibble (R79). -/

namespace Sys2Proof

/-- SYS nnn is a word of its own only when the word is neither CLS nor RET (R77). -/
def sysOk (nnn : Addr12) : Bool := nnn != 0x0E0#12 && nnn != 0x0EE#12

/-- The low nibble of an unsettled word is not 0 (R79). -/
def looseOk (n : Nibble) : Bool := n != 0#4

/-- The instruction is one that a word decodes to. Every other operand field may hold any value. -/
def Instr.wellFormed : Instr → Bool
  | .sys nnn => sysOk nnn
  | .loose5 _ _ n => looseOk n
  | .loose9 _ _ n => looseOk n
  | .cls | .ret | .jp _ | .call _ | .ldI _ | .jpV0 _ => true
  | .seImm _ _ | .sneImm _ _ | .ldImm _ _ | .addImm _ _ | .rnd _ _ => true
  | .seReg _ _ | .sneReg _ _ | .ldReg _ _ | .orReg _ _ | .andReg _ _ | .xorReg _ _ => true
  | .addReg _ _ | .sub _ _ | .shr _ _ | .subn _ _ | .shl _ _ | .drw _ _ _ => true
  | .skp _ | .sknp _ | .ldVxDt _ | .ldVxK _ | .ldDtVx _ | .ldStVx _ => true
  | .addI _ | .ldF _ | .ldB _ | .ldMemVx _ | .ldVxMem _ => true

end Sys2Proof
end

