-- ==== Sys2Proof/Decode.lean ====
section
/-! DEFINITION. The decoder and the encoder (30_encoding.md R70 to R79). The decoder is total: a word is one
instruction or an unknown word, rejected by name. The quirk configuration does not enter (R74). -/

namespace Sys2Proof

/-- The op field, bits 15..12 (R71). -/
def opField (w : Word) : Nibble := w.extractLsb' 12 4

/-- The x field, bits 11..8 (R71). -/
def xField (w : Word) : Nibble := w.extractLsb' 8 4

/-- The y field, bits 7..4 (R71). -/
def yField (w : Word) : Nibble := w.extractLsb' 4 4

/-- The n field, bits 3..0 (R71). -/
def nField (w : Word) : Nibble := w.extractLsb' 0 4

/-- The nn field, bits 7..0 (R71). -/
def nnField (w : Word) : Byte := w.extractLsb' 0 8

/-- The nnn field, bits 11..0 (R71). -/
def nnnField (w : Word) : Addr12 := w.extractLsb' 0 12

/-- What the decoder answers. -/
inductive Decoded where
  /-- The word is this instruction. -/
  | instr (i : Instr)
  /-- Rejected: the word matches no row of the opcode map (R78). -/
  | unknown (w : Word)
  /-- Rejected: fewer than two bytes are no instruction word (R70). -/
  | truncated
  deriving DecidableEq, Repr

/-- The words with op 0: 00E0 and 00EE exactly, else SYS (R77). -/
def decode0 (w : Word) : Decoded :=
  if w = 0x00E0#16 then .instr .cls
  else if w = 0x00EE#16 then .instr .ret
  else .instr (.sys (nnnField w))

/-- The words with op 8, told apart by n (R74, R75). -/
def decode8 (w : Word) : Decoded :=
  let x := xField w
  let y := yField w
  if nField w = 0x0#4 then .instr (.ldReg x y)
  else if nField w = 0x1#4 then .instr (.orReg x y)
  else if nField w = 0x2#4 then .instr (.andReg x y)
  else if nField w = 0x3#4 then .instr (.xorReg x y)
  else if nField w = 0x4#4 then .instr (.addReg x y)
  else if nField w = 0x5#4 then .instr (.sub x y)
  else if nField w = 0x6#4 then .instr (.shr x y)
  else if nField w = 0x7#4 then .instr (.subn x y)
  else if nField w = 0xE#4 then .instr (.shl x y)
  else .unknown w

/-- The words with op E, told apart by nn (R74, R75). -/
def decodeE (w : Word) : Decoded :=
  if nnField w = 0x9E#8 then .instr (.skp (xField w))
  else if nnField w = 0xA1#8 then .instr (.sknp (xField w))
  else .unknown w

/-- The words with op F, told apart by nn (R74, R75). -/
def decodeF (w : Word) : Decoded :=
  let x := xField w
  if nnField w = 0x07#8 then .instr (.ldVxDt x)
  else if nnField w = 0x0A#8 then .instr (.ldVxK x)
  else if nnField w = 0x15#8 then .instr (.ldDtVx x)
  else if nnField w = 0x18#8 then .instr (.ldStVx x)
  else if nnField w = 0x1E#8 then .instr (.addI x)
  else if nnField w = 0x29#8 then .instr (.ldF x)
  else if nnField w = 0x33#8 then .instr (.ldB x)
  else if nnField w = 0x55#8 then .instr (.ldMemVx x)
  else if nnField w = 0x65#8 then .instr (.ldVxMem x)
  else .unknown w

/-- The decoder on a word (R74 to R79). The patterns are the spec's own, from general knowledge (PRESUMED, log 16).
5XYn and 9XYn with n != 0 are rows of their own here: what they do is LOOSE_5_9's (log 20). -/
def decodeWord (w : Word) : Decoded :=
  let x := xField w
  let y := yField w
  let n := nField w
  let nn := nnField w
  let nnn := nnnField w
  if opField w = 0x0#4 then decode0 w
  else if opField w = 0x1#4 then .instr (.jp nnn)
  else if opField w = 0x2#4 then .instr (.call nnn)
  else if opField w = 0x3#4 then .instr (.seImm x nn)
  else if opField w = 0x4#4 then .instr (.sneImm x nn)
  else if opField w = 0x5#4 then
    if n = 0#4 then .instr (.seReg x y) else .instr (.loose5 x y n)
  else if opField w = 0x6#4 then .instr (.ldImm x nn)
  else if opField w = 0x7#4 then .instr (.addImm x nn)
  else if opField w = 0x8#4 then decode8 w
  else if opField w = 0x9#4 then
    if n = 0#4 then .instr (.sneReg x y) else .instr (.loose9 x y n)
  else if opField w = 0xA#4 then .instr (.ldI nnn)
  else if opField w = 0xB#4 then .instr (.jpV0 nnn)
  else if opField w = 0xC#4 then .instr (.rnd x nn)
  else if opField w = 0xD#4 then .instr (.drw x y n)
  else if opField w = 0xE#4 then decodeE w
  else decodeF w

/-- The word of two bytes, the first (at the lower address) being bits 15..8 (20_memory.md R55). -/
def wordOfBytes (hi lo : Byte) : Word := (hi.setWidth 16 <<< 8) ||| lo.setWidth 16

/-- The byte of a word at the lower address (20_memory.md R55). -/
def highByte (w : Word) : Byte := w.extractLsb' 8 8

/-- The byte of a word at the higher address (20_memory.md R55). -/
def lowByte (w : Word) : Byte := w.extractLsb' 0 8

/-- The decoder on bytes, in address order, total on any list: what the first word is (R70), or `truncated`. -/
def decode : List Byte → Decoded
  | hi :: lo :: _ => decodeWord (wordOfBytes hi lo)
  | _ => .truncated

/-- A word with op, x and nn given (3XNN and its like). -/
def wordXNN (op x : Nibble) (nn : Byte) : Word :=
  (op.setWidth 16 <<< 12) ||| (x.setWidth 16 <<< 8) ||| nn.setWidth 16

/-- A word with op, x, y and n given (8XYn and its like). -/
def wordXYN (op x y n : Nibble) : Word :=
  (op.setWidth 16 <<< 12) ||| (x.setWidth 16 <<< 8) ||| (y.setWidth 16 <<< 4) ||| n.setWidth 16

/-- A word with op and nnn given (1NNN and its like). -/
def wordNNN (op : Nibble) (nnn : Addr12) : Word := (op.setWidth 16 <<< 12) ||| nnn.setWidth 16

/-- The encoder, from the same opcode map (R75): the word that stands for a well-formed instruction. -/
def encodeWord : Instr → Word
  | .sys nnn => wordNNN 0x0#4 nnn
  | .cls => 0x00E0#16
  | .ret => 0x00EE#16
  | .jp nnn => wordNNN 0x1#4 nnn
  | .call nnn => wordNNN 0x2#4 nnn
  | .seImm x nn => wordXNN 0x3#4 x nn
  | .sneImm x nn => wordXNN 0x4#4 x nn
  | .seReg x y => wordXYN 0x5#4 x y 0x0#4
  | .ldImm x nn => wordXNN 0x6#4 x nn
  | .addImm x nn => wordXNN 0x7#4 x nn
  | .ldReg x y => wordXYN 0x8#4 x y 0x0#4
  | .orReg x y => wordXYN 0x8#4 x y 0x1#4
  | .andReg x y => wordXYN 0x8#4 x y 0x2#4
  | .xorReg x y => wordXYN 0x8#4 x y 0x3#4
  | .addReg x y => wordXYN 0x8#4 x y 0x4#4
  | .sub x y => wordXYN 0x8#4 x y 0x5#4
  | .shr x y => wordXYN 0x8#4 x y 0x6#4
  | .subn x y => wordXYN 0x8#4 x y 0x7#4
  | .shl x y => wordXYN 0x8#4 x y 0xE#4
  | .sneReg x y => wordXYN 0x9#4 x y 0x0#4
  | .ldI nnn => wordNNN 0xA#4 nnn
  | .jpV0 nnn => wordNNN 0xB#4 nnn
  | .rnd x nn => wordXNN 0xC#4 x nn
  | .drw x y n => wordXYN 0xD#4 x y n
  | .skp x => wordXNN 0xE#4 x 0x9E#8
  | .sknp x => wordXNN 0xE#4 x 0xA1#8
  | .ldVxDt x => wordXNN 0xF#4 x 0x07#8
  | .ldVxK x => wordXNN 0xF#4 x 0x0A#8
  | .ldDtVx x => wordXNN 0xF#4 x 0x15#8
  | .ldStVx x => wordXNN 0xF#4 x 0x18#8
  | .addI x => wordXNN 0xF#4 x 0x1E#8
  | .ldF x => wordXNN 0xF#4 x 0x29#8
  | .ldB x => wordXNN 0xF#4 x 0x33#8
  | .ldMemVx x => wordXNN 0xF#4 x 0x55#8
  | .ldVxMem x => wordXNN 0xF#4 x 0x65#8
  | .loose5 x y n => wordXYN 0x5#4 x y n
  | .loose9 x y n => wordXYN 0x9#4 x y n

/-- The bytes of an instruction as memory holds them, in address order (20_memory.md R55). -/
def encode (i : Instr) : List Byte := [highByte (encodeWord i), lowByte (encodeWord i)]

/-- The bytes of an instruction word whose bits are the number w, bit 0 its least significant (30_encoding.md R71):
the table's numbering is the spec's own, and a word is all of an instruction (R70). -/
def tableWordBytes (w : Nat) : List Byte := [highByte (BitVec.ofNat 16 w), lowByte (BitVec.ofNat 16 w)]

/-- The instruction the decoder reads from the bytes of a table word, `none` where it rejects them. Every row has
16 bits, the whole of an instruction: the bits of w above nbits are taken as 0. -/
def decodeTableWord (nbits w : Nat) : Option Instr :=
  match decode (tableWordBytes (w % 2 ^ nbits)) with
  | .instr i => some i
  | .unknown _ => none
  | .truncated => none

end Sys2Proof
end

