-- ==== Sys2Proof/Config.lean ====
section
/-! DEFINITION. What is fixed at construction (00_scope.md R9, 10_state.md R33) and the free values: what the
environment supplies and the spec leaves unconstrained. -/

namespace Sys2Proof

/-- FONT_WRITE: what a store into the font region does (20_memory.md R54). -/
inductive FontWrite where
  | fault
  | allow
  deriving DecidableEq, Repr

/-- LOOSE_5_9: what the words 5XYn and 9XYn with n != 0 are (30_encoding.md R79). -/
inductive Loose59 where
  | refuse
  | asN0
  | unknown
  deriving DecidableEq, Repr

/-- KEY_CHOICE: which of several pressed keys FX0A reports (45_timers_keys_random.md R195). `lowest` is the
source's recommendation, min(S). `draw` is any member, a fresh choice at each execution. -/
inductive KeyChoice where
  | lowest
  | draw
  deriving DecidableEq, Repr

/-- The parameters of the block, fixed at construction and immutable from then on (R9, R33, R270). The bounds of
`fontBase` and `programOrigin` are the constraints FONT_BASE + 80 <= 4096 and PROGRAM_ORIGIN < 4096 of R53. -/
structure Config where
  /-- Q_SHIFT: SHR and SHL shift V[y] into V[x]. -/
  qShift : Bool
  /-- Q_JUMP: BNNN adds V[0]. -/
  qJump : Bool
  /-- Q_MEMIDX: FX55 and FX65 advance I. -/
  qMemIdx : Bool
  /-- INSTR_RATE, in instructions per second. -/
  instrRate : Nat
  /-- STACK_DEPTH, `none` for unbounded. -/
  stackDepth : Option Nat
  /-- FONT_BASE. -/
  fontBase : Fin 4017
  /-- PROGRAM_ORIGIN. -/
  programOrigin : Fin 4096
  /-- FONT_DATA. -/
  fontData : Vector Byte 80
  /-- FONT_WRITE. -/
  fontWrite : FontWrite
  /-- LOOSE_5_9. -/
  loose59 : Loose59
  /-- KEY_CHOICE. -/
  keyChoice : KeyChoice
  /-- The fixed table of 16 entries from physical keys to logical codes (60_exceptions.md R256). -/
  keyTable : Vector (Nat × Nibble) 16
  deriving DecidableEq, Repr

/-- The launch parameters: the values of the registers and timers the source leaves open after construction
(70_reset_and_hazards.md R271). -/
structure Launch where
  /-- INIT_V. -/
  initV : Vector Byte 16
  /-- INIT_I. -/
  initI : Word
  /-- INIT_DT. -/
  initDt : Byte
  /-- INIT_ST. -/
  initSt : Byte
  deriving DecidableEq, Repr

/-- A notification from the keyboard source: it names a physical key (60_exceptions.md R256). -/
inductive KeyEvent where
  | press (phys : Nat)
  | release (phys : Nat)
  deriving DecidableEq, Repr

/-- FREE VALUE: the byte that draw number n of RND gets (R190, log 18). -/
opaque Config.freeByte : Nat → Byte

/-- FREE VALUE: which of the pressed keys draw number n of FX0A takes, counted round the set (R195, log 7). -/
opaque Config.freeKeyIndex : Nat → Nat

/-- FREE VALUE: floor(elapsed × INSTR_RATE) as the controller computes it at draw number n (R253, log 11). -/
opaque Config.freePace : Nat → Nat

/-- FREE VALUE: the key events that reached the queue since the poll before (R256, log 12). -/
opaque Config.freeEvents : Nat → List KeyEvent

/-- FREE VALUE: whether the device operation of draw number n fails (R240, log 19). -/
opaque Config.freeDeviceFails : Nat → Bool

end Sys2Proof
end

