-- ==== Sys2Proof/Machine/Boot.lean ====
section
/-! DEFINITION. The construction the model's reset stands for: the configuration and the launch parameters that
`State.reset` is built with. Nothing else reads them, and every claim over all states holds for every other choice
(log 1). -/

namespace Sys2Proof.Machine

/-- The conventional glyphs, five bytes each, digits 0 to F (93_implementation_defined.md G3; PRESUMED, log 4). -/
def bootFont : Vector Byte 80 :=
  #v[0xF0, 0x90, 0x90, 0x90, 0xF0,
     0x20, 0x60, 0x20, 0x20, 0x70,
     0xF0, 0x10, 0xF0, 0x80, 0xF0,
     0xF0, 0x10, 0xF0, 0x10, 0xF0,
     0x90, 0x90, 0xF0, 0x10, 0x10,
     0xF0, 0x80, 0xF0, 0x10, 0xF0,
     0xF0, 0x80, 0xF0, 0x90, 0xF0,
     0xF0, 0x10, 0x20, 0x40, 0x40,
     0xF0, 0x90, 0xF0, 0x90, 0xF0,
     0xF0, 0x90, 0xF0, 0x10, 0xF0,
     0xF0, 0x90, 0xF0, 0x90, 0x90,
     0xE0, 0x90, 0xE0, 0x90, 0xE0,
     0xF0, 0x80, 0x80, 0x80, 0xF0,
     0xE0, 0x90, 0x90, 0x90, 0xE0,
     0xF0, 0x80, 0xF0, 0x80, 0xF0,
     0xF0, 0x80, 0xF0, 0x80, 0x80]

/-- Physical key k is logical code k (DESIGN CHOICE, log 8: the table is not in the spec). -/
def bootKeyTable : Vector (Nat × Nibble) 16 :=
  #v[(0, 0x0), (1, 0x1), (2, 0x2), (3, 0x3), (4, 0x4), (5, 0x5), (6, 0x6), (7, 0x7),
     (8, 0x8), (9, 0x9), (10, 0xA), (11, 0xB), (12, 0xC), (13, 0xD), (14, 0xE), (15, 0xF)]

/-- The configuration of `State.reset`: quirks off (DESIGN CHOICE, log 2), FONT_BASE and PROGRAM_ORIGIN the spec's
example values (PRESUMED, log 3), the spec's defaults for the rest (log 6), KEY_CHOICE a draw (DESIGN CHOICE, log 7). -/
def bootConfig : Config where
  qShift := false
  qJump := false
  qMemIdx := false
  instrRate := 700
  stackDepth := none
  fontBase := 0x050
  programOrigin := 0x200
  fontData := bootFont
  fontWrite := .fault
  loose59 := .refuse
  keyChoice := .draw
  keyTable := bootKeyTable

/-- The launch parameters of `State.reset`: the spec's recommended zeros (DESIGN CHOICE, log 5). -/
def bootLaunch : Launch where
  initV := #v[0, 0, 0, 0, 0, 0, 0, 0, 0, 0, 0, 0, 0, 0, 0, 0]
  initI := 0
  initDt := 0
  initSt := 0

end Sys2Proof.Machine
end

