-- ==== Sys2Proof/Machine/State.lean ====
section
/-! DEFINITION. The state of the block (10_state.md R20 to R39, 60_exceptions.md R252 to R257), why a step can stop,
and the state right after construction. -/

namespace Sys2Proof.Machine

/-- Memory: the bytes that differ from the construction contents, by rising address. `Memory.wf` in Ops.lean says the
form. -/
abbrev Memory := List Host.Cell

/-- The display: 32 rows of 64 pixels, true = lit (R30). -/
abbrev Display := Vector (Vector Bool 64) 32

/-- The pressed-key set: one boolean per logical key code (R32). -/
abbrev KeySet := Vector Bool 16

/-- The fatal faults (60_exceptions.md R232). A fault ends the run (R231). `addr` is A, the address of the
instruction. -/
inductive Fault where
  /-- pc + 1 is outside memory at fetch: raised by every fetch (R52). Safe: the spec's own stop. -/
  | fetchBounds (pc : Word)
  /-- A data address is outside memory: raised by DXYN, FX33, FX55, FX65 (R51). Safe: the spec's own stop. -/
  | memBounds (a : Nat) (addr : Word)
  /-- RET with an empty stack: raised by 00EE (R28, R233). Safe: the spec's own stop. -/
  | stackUnderflow (addr : Word)
  /-- CALL with a full stack of finite depth: raised by 2NNN (R28). Safe: the spec's own stop. -/
  | stackOverflow (addr : Word)
  /-- A new value of I does not fit 16 bits: raised by FX1E, and FX55 and FX65 when Q_MEMIDX (R171). Safe: the
  spec's own stop. -/
  | indexOverflow (v : Nat) (addr : Word)
  /-- V[x] is no key code: raised by EX9E, EXA1 (R127). Safe: the spec's own stop. -/
  | keyRange (v : Byte) (addr : Word)
  /-- V[x] is no hexadecimal digit: raised by FX29 (R173). Safe: the spec's own stop. -/
  | fontDigit (v : Byte) (addr : Word)
  /-- A store into the font region under FONT_WRITE = fault: raised by FX33, FX55 (R54). Safe: the spec's own stop. -/
  | fontWrite (a : Nat) (addr : Word)
  deriving DecidableEq, Repr

/-- Why the model gives no meaning. -/
inductive Refusal where
  /-- No meaning written yet: raised by exec's arms only. Safe: nothing can be proved of such a run. -/
  | notModelled (mnemonic : String)
  /-- 5XYn or 9XYn with n != 0 under LOOSE_5_9 = refuse: raised by the two unsettled rows (R79, R236). Safe: nothing
  can be proved of such a run. -/
  | unsettled59 (w : Word) (addr : Word)
  deriving DecidableEq, Repr

/-- Whether the block runs (R36). -/
inductive Status where
  | running
  | faulted (f : Fault)
  | refused (r : Refusal)
  deriving DecidableEq, Repr

/-- The devices whose operations may fail (R240). -/
inductive Device where
  | display
  | audio
  deriving DecidableEq, Repr

/-- A non-fatal report (R37). -/
inductive Report where
  /-- The decoder met the unknown word w at addr (R78, R235). -/
  | unknown (w : Word) (addr : Word)
  /-- A present, a play or a pause failed (R240). -/
  | deviceFailure (which : Device)
  deriving DecidableEq, Repr

/-- Which part of a timing-controller iteration comes next (R254). -/
inductive Phase where
  /-- (a) the key poll, after which the burst's length is computed. -/
  | poll
  /-- (b) the burst, with this many instruction steps to go; with none, (c) the tick. -/
  | burst (k : Nat)
  /-- (d) the present. -/
  | present
  /-- The audio gate follows ST; then the next iteration. -/
  | audio
  deriving DecidableEq, Repr

/-- The state of the block. -/
structure State where
  /-- The configuration, fixed at construction (R33, R9): an argument of every step that no step changes (log 1). -/
  cfg : Config
  /-- mem (R20, R38). -/
  mem : Memory
  /-- V0 to VF (R22). -/
  v : Vector Byte 16
  /-- I (R27). -/
  idx : Word
  /-- pc (R25). -/
  pc : Word
  /-- The call stack, top last (R28). -/
  stack : List Word
  /-- DT (R31). -/
  dt : Byte
  /-- ST (R31). -/
  st : Byte
  /-- The pressed-key set (R32). -/
  keys : KeySet
  /-- The display (R30). -/
  disp : Display
  /-- The pending redraw request (R35). -/
  redraw : Bool
  /-- Whether the block runs (R36). -/
  status : Status
  /-- The reports, oldest first (R37). -/
  log : List Report
  /-- Which agent moves next (R254; log 10). -/
  phase : Phase
  /-- The key events not yet drained, oldest first (R256). -/
  keyQueue : List KeyEvent
  /-- The controller's count of instruction steps (R253, R259). -/
  executed : Nat
  /-- The frame last handed to the display surface (R255; log 15). -/
  shown : Option Display
  /-- How often the present operation was called (R255; log 15). -/
  presents : Nat
  /-- The level last given to the audio sink (R252; log 14). -/
  gate : Bool
  /-- The model's own: how many free values have been drawn (log 13). -/
  draws : Nat
  deriving DecidableEq, Repr

/-- What a step, or an instruction, answers. -/
abbrev Result := Host.Outcome State Fault Refusal

/-- A cleared display (R39). -/
def Display.blank : Display := Vector.replicate 32 (Vector.replicate 64 false)

/-- The empty pressed-key set (R39). -/
def KeySet.empty : KeySet := Vector.replicate 16 false

/-- Construction, without the ROM (70_reset_and_hazards.md R270, 10_state.md R39): memory holds the font and zeros,
that is, nothing but its construction contents. The fields outside the tuple of R20 are the model's (log 10 to 15). -/
def State.construct (c : Config) (l : Launch) : State where
  cfg := c
  mem := []
  v := l.initV
  idx := l.initI
  pc := BitVec.ofNat 16 c.programOrigin.val
  stack := []
  dt := l.initDt
  st := l.initSt
  keys := KeySet.empty
  disp := Display.blank
  redraw := false
  status := .running
  log := []
  phase := .poll
  keyQueue := []
  executed := 0
  shown := none
  presents := 0
  gate := false
  draws := 0

/-- The machine right after reset: constructed with the configuration and the launch parameters of Boot.lean, no ROM
loaded. -/
def State.reset : State := State.construct bootConfig bootLaunch

end Sys2Proof.Machine
end

