-- ==== Sys2Proof/Machine/Ops.lean ====
section
/-! DEFINITION. The named operations over memory, registers, stack, display, keys and the log (00_scope.md R11,
20_memory.md, 10_state.md), and `raise`, the one way a fault ends a run. -/

namespace Sys2Proof.Machine

/-! ### Memory -/

/-- The construction contents of address a, and so what an unlisted address reads as: the font bytes in
[FONT_BASE, FONT_BASE + 80), 0x00 everywhere else (R39, R53; log 9). -/
def resetByte (c : Config) (a : Nat) : Byte :=
  if c.fontBase.val ≤ a then (c.fontData.toList[a - c.fontBase.val]?).getD 0 else 0

/-- The listed byte of address a, if there is one. -/
def Memory.lookup : Memory → Nat → Option Byte
  | [], _ => none
  | (k, b) :: m, a => if k = a then some b else Memory.lookup m a

/-- The byte at address a. -/
def Memory.read (c : Config) (m : Memory) (a : Nat) : Byte := (Memory.lookup m a).getD (resetByte c a)

/-- List byte b at address a, in its place. -/
def Memory.insert : Memory → Nat → Byte → Memory
  | [], a, b => [(a, b)]
  | (k, b') :: m, a, b =>
    if a < k then (a, b) :: (k, b') :: m
    else if a = k then (a, b) :: m
    else (k, b') :: Memory.insert m a b

/-- List nothing at address a. -/
def Memory.erase (m : Memory) (a : Nat) : Memory := m.filter fun p => p.1 != a

/-- Store byte b at address a, keeping the canonical form. -/
def Memory.write (c : Config) (m : Memory) (a : Nat) (b : Byte) : Memory :=
  if b = resetByte c a then Memory.erase m a else Memory.insert m a b

/-- The canonical form: addresses strictly rising and inside memory, no byte equal to what an unlisted address reads
as. Under it equal memories are equal lists. -/
abbrev Memory.wf (c : Config) (m : Memory) : Prop :=
  m.Pairwise (fun p q => p.1 < q.1) ∧ ∀ p ∈ m, p.1 < 4096 ∧ p.2 ≠ resetByte c p.1

/-! ### One field at a time -/

/-- mem <- m. -/
def State.setMem (s : State) (m : Memory) : State := { s with mem := m }

/-- V[x]. -/
def State.reg (s : State) (x : Nibble) : Byte := s.v[x.toNat]

/-- V[x] <- b. No register is hardwired (R22). -/
def State.setReg (s : State) (x : Nibble) (b : Byte) : State := { s with v := s.v.set x.toNat b }

/-- I <- w, for a value that fits (see `writeIndex`). -/
def State.setIdx (s : State) (w : Word) : State := { s with idx := w }

/-- pc <- w. Sums of words wrap mod 2^16 (R11, R26). -/
def State.setPc (s : State) (w : Word) : State := { s with pc := w }

/-- stack <- l. -/
def State.setStack (s : State) (l : List Word) : State := { s with stack := l }

/-- DT <- b. -/
def State.setDt (s : State) (b : Byte) : State := { s with dt := b }

/-- ST <- b. -/
def State.setSt (s : State) (b : Byte) : State := { s with st := b }

/-- keys <- k. -/
def State.setKeys (s : State) (k : KeySet) : State := { s with keys := k }

/-- disp <- d. -/
def State.setDisp (s : State) (d : Display) : State := { s with disp := d }

/-- redraw <- b. -/
def State.setRedraw (s : State) (b : Bool) : State := { s with redraw := b }

/-- status <- x. -/
def State.setStatus (s : State) (x : Status) : State := { s with status := x }

/-- `report U(info)`: append to the log, nothing else (R11, R37). -/
def State.report (s : State) (r : Report) : State := { s with log := s.log ++ [r] }

/-- The sequencer goes on to phase p (R254). -/
def State.setPhase (s : State) (p : Phase) : State := { s with phase := p }

/-- The key events left to drain (R256). -/
def State.setKeyQueue (s : State) (q : List KeyEvent) : State := { s with keyQueue := q }

/-- The controller counts one more instruction step (R253). -/
def State.countStep (s : State) : State := { s with executed := s.executed + 1 }

/-- Hand the display to the present operation (R255). -/
def State.showFrame (s : State) : State := { s with shown := some s.disp, presents := s.presents + 1 }

/-- Drive the audio sink to a level (R252). -/
def State.setGate (s : State) (b : Bool) : State := { s with gate := b }

/-- One more free value is drawn (log 13). -/
def State.countDraw (s : State) : State := { s with draws := s.draws + 1 }

/-! ### Stopping -/

/-- What pc holds after a fault: A after FetchBounds, which comes before pc advances, and A + 2 after every other one
(R231). -/
def Fault.pcAfter : Fault → Word
  | .fetchBounds pc => pc
  | .memBounds _ addr => addr + 2#16
  | .stackUnderflow addr => addr + 2#16
  | .stackOverflow addr => addr + 2#16
  | .indexOverflow _ addr => addr + 2#16
  | .keyRange _ addr => addr + 2#16
  | .fontDigit _ addr => addr + 2#16
  | .fontWrite _ addr => addr + 2#16

/-- The state after fault f met in s: status and pc as R231 fixes them, memory, registers and display any values m, v
and d, which the rule leaves open, and the rest as it was. The step answers the fault itself, so this state is what a
claim about a faulted block speaks of (log 17). -/
def State.afterFault (s : State) (f : Fault) (m : Memory) (v : Vector Byte 16) (d : Display) : State :=
  { s with status := .faulted f, pc := f.pcAfter, mem := m, v := v, disp := d }

/-- `raise F(info)`: the fault ends the run and the rest of the instruction does not happen (R231). The answer holds the
fault with its information; `State.afterFault` is the state it leaves (log 17). This is the block's only error entry; there is no return from it (R230, R239). -/
def raise (f : Fault) : Result := .fault f

/-- `refuse R`: the spec gives the spelling no meaning (R236). -/
def refuse (r : Refusal) : Result := .refused r

/-- An instruction ends with the state its operations give, or with the first fault they raise (R237). -/
def finish : Except Fault State → Result
  | .ok s => .next s
  | .error f => raise f

/-- A, the address of the instruction that executes: pc is already past it (R13). -/
def State.instrAddr (s : State) : Word := s.pc - 2#16

/-! ### Memory access -/

/-- The byte at address a. -/
def State.byteAt (s : State) (a : Nat) : Byte := s.mem.read s.cfg a

/-- Address a is in the font region (R53). -/
def inFont (c : Config) (a : Nat) : Bool := decide (c.fontBase.val ≤ a ∧ a < c.fontBase.val + 80)

/-- A store to address a is not allowed: it is in the font region and FONT_WRITE = fault (R54). -/
def fontProtected (c : Config) (a : Nat) : Bool := inFont c a && c.fontWrite == .fault

/-- `MemRead(a, 1)` at an exact address (R51). -/
def State.memRead (s : State) (a : Nat) : Except Fault Byte :=
  if a < 4096 then .ok (s.byteAt a) else .error (.memBounds a s.instrAddr)

/-- `MemWrite(a, 1, b)` at an exact address: bounds first, then the font check (R51, R54, R237). -/
def State.memWrite (s : State) (a : Nat) (b : Byte) : Except Fault State :=
  if a < 4096 then
    if fontProtected s.cfg a then .error (.fontWrite a s.instrAddr)
    else .ok (s.setMem (s.mem.write s.cfg a b))
  else .error (.memBounds a s.instrAddr)

/-- Store the bytes at a, a + 1, ..., lowest address first (R56). -/
def State.storeBytes (s : State) (a : Nat) : List Byte → Except Fault State
  | [] => .ok s
  | b :: bs =>
    match s.memWrite a b with
    | .ok s' => s'.storeBytes (a + 1) bs
    | .error f => .error f

/-- V0 to Vx, in order (R175). -/
def State.regsUpTo (s : State) (x : Nibble) : List Byte := s.v.toList.take (x.toNat + 1)

/-- Load n registers from register number i on, from address a on, lowest first (R56, R176). -/
def State.loadRegs (s : State) (i a : Nat) : Nat → Except Fault State
  | 0 => .ok s
  | n + 1 =>
    match s.memRead a with
    | .ok b => (s.setReg (BitVec.ofNat 4 i) b).loadRegs (i + 1) (a + 1) n
    | .error f => .error f

/-- I <- n, n exact: a value above 0xFFFF is a fault and leaves I unchanged (R171). -/
def State.writeIndex (s : State) (n : Nat) : Except Fault State :=
  if n ≤ 0xFFFF then .ok (s.setIdx (BitVec.ofNat 16 n)) else .error (.indexOverflow n s.instrAddr)

/-! ### The call stack -/

/-- The stack has room for one more entry (R28). -/
def State.stackHasRoom (s : State) : Bool :=
  match s.cfg.stackDepth with
  | none => true
  | some d => decide (s.stack.length < d)

/-- `Push(w)` (R28). -/
def State.push (s : State) (w : Word) : Except Fault State :=
  if s.stackHasRoom then .ok (s.setStack (s.stack ++ [w])) else .error (.stackOverflow s.instrAddr)

/-- `Pop()`: the top entry and the state without it (R28). -/
def State.pop (s : State) : Except Fault (Word × State) :=
  match s.stack.getLast? with
  | some w => .ok (w, s.setStack s.stack.dropLast)
  | none => .error (.stackUnderflow s.instrAddr)

/-! ### The display -/

/-- `Pixel(c, r)`: column c, row r (R30). -/
def Display.pixel (d : Display) (c : Fin 64) (r : Fin 32) : Bool := d[r.val][c.val]

/-- `Pixel(c, r) <- b` (R30). -/
def Display.setPixel (d : Display) (c : Fin 64) (r : Fin 32) (b : Bool) : Display :=
  d.set r.val (d[r.val].set c.val b)

/-- Column c of a sprite row at (sx, row): clipped at the right edge; a set bit toggles its pixel, and turning a lit
pixel off is a collision (R211). The most significant bit is column 0. -/
def drawColumn (row : Fin 32) (sx : Nat) (b : Byte) (acc : Display × Bool) (c : Nat) : Display × Bool :=
  if h : sx + c < 64 then
    if b.getMsbD c then
      if acc.1.pixel ⟨sx + c, h⟩ row then (acc.1.setPixel ⟨sx + c, h⟩ row false, true)
      else (acc.1.setPixel ⟨sx + c, h⟩ row true, acc.2)
    else acc
  else acc

/-- One row of a sprite, columns left to right (R211). -/
def drawRow (row : Fin 32) (sx : Nat) (b : Byte) (acc : Display × Bool) : Display × Bool :=
  [0, 1, 2, 3, 4, 5, 6, 7].foldl (drawColumn row sx b) acc

/-- The sprite rows r, r + 1, ..., n of them, from the byte at I + r on: drawing ends at the bottom edge, and a clipped
row is not read (R211). -/
def State.drawRows (s : State) (sx sy : Nat) (r : Nat) (acc : Display × Bool) : Nat → Except Fault (Display × Bool)
  | 0 => .ok acc
  | n + 1 =>
    if h : sy + r < 32 then
      match s.memRead (s.idx.toNat + r) with
      | .ok b => s.drawRows sx sy (r + 1) (drawRow ⟨sy + r, h⟩ sx b acc) n
      | .error f => .error f
    else .ok acc

/-! ### The keys -/

/-- `Pressed(k)` for a logical key code (R32). -/
def State.pressed (s : State) (k : Nibble) : Bool := s.keys[k.toNat]

/-- The pressed keys, lowest code first. -/
def State.pressedKeys (s : State) : List Nat := (List.range 16).filter fun k => s.keys.toList[k]?.getD false

/-- The logical code of a physical key, `none` for a key outside the table (R256). -/
def keyCodeOf (c : Config) (phys : Nat) : Option Nibble :=
  (c.keyTable.toList.find? fun e => e.1 == phys).map (·.2)

/-- Apply one key notification: a press adds the code to the set, a release removes it, an unmapped key does nothing
(R32, R256). -/
def State.applyKeyEvent (s : State) : KeyEvent → State
  | .press p =>
    match keyCodeOf s.cfg p with
    | some k => s.setKeys (s.keys.set k.toNat true)
    | none => s
  | .release p =>
    match keyCodeOf s.cfg p with
    | some k => s.setKeys (s.keys.set k.toNat false)
    | none => s

/-! ### The ROM loader -/

/-- Put a byte into memory from outside the instruction engine, past FONT_WRITE; outside memory there is no byte to
put it in. -/
def State.placeByte (s : State) (a : Nat) (b : Byte) : State :=
  if a < 4096 then s.setMem (s.mem.write s.cfg a b) else s

/-- Copy bytes into memory from address a on: the loader's writes bypass FONT_WRITE (R272). -/
def State.placeBytes (s : State) (a : Nat) : List Byte → State
  | [] => s
  | b :: bs => (s.placeByte a b).placeBytes (a + 1) bs

/-- The ROM loader: the ROM at PROGRAM_ORIGIN, verbatim, before the first step (R272). -/
def State.loadRom (s : State) (rom : List Byte) : State := s.placeBytes s.cfg.programOrigin.val rom

/-- The host's duty at launch: the ROM fits and does not meet the font region (R53, R272). -/
def launchOk (c : Config) (rom : List Byte) : Bool :=
  decide (c.programOrigin.val + rom.length ≤ 4096 ∧
    (c.programOrigin.val + rom.length ≤ c.fontBase.val ∨ c.fontBase.val + 80 ≤ c.programOrigin.val))

end Sys2Proof.Machine
end

