-- ==== Sys2Proof/Machine/Flags.lean ====
section
/-! DEFINITION. The flag computations and the order in which result and flag are written (43_alu.md R140, R147 to
R151, R152). VF is the only flag (10_state.md R34). -/

namespace Sys2Proof.Machine

/-- A flag as the byte VF holds: 1 or 0. -/
def flagByte (f : Bool) : Byte := if f then 1#8 else 0#8

/-- The sum of a and b exceeds 8 bits (R147). -/
def carryOut (a b : Byte) : Bool := decide (0xFF < a.toNat + b.toNat)

/-- a minus b needs no borrow (R148, R150). -/
def noBorrow (a b : Byte) : Bool := decide (b.toNat ≤ a.toNat)

/-- The bit a right shift moves out (R149). -/
def lowBit (b : Byte) : Bool := b.getLsbD 0

/-- The bit a left shift moves out (R151). -/
def highBit (b : Byte) : Bool := b.getLsbD 7

/-- The result goes to V[x], then the flag to VF: for x = F the flag stays (R140). -/
def State.setRegFlag (s : State) (x : Nibble) (result : Byte) (f : Bool) : State :=
  (s.setReg x result).setReg flagReg (flagByte f)

end Sys2Proof.Machine
end

