-- ==== Sys2Proof/Machine/Operands.lean ====
section
/-! DEFINITION. The operand forms and the shared steps of the instruction rules (30_encoding.md R73, 42_skip.md R120,
R127, 44_index_memory.md R173 to R176, 45_timers_keys_random.md R195). -/

namespace Sys2Proof.Machine

/-- `zext_16(nnn)`: a 12-bit address in pc or I (R12, R73). -/
def widen (nnn : Addr12) : Word := nnn.setWidth 16

/-- The x field of a BNNN word, the top nibble of its nnn (R71, R104). -/
def xOfNnn (nnn : Addr12) : Nibble := nnn.extractLsb' 8 4

/-- The register BNNN adds: V0 under Q_JUMP, else Vx (R104). -/
def offsetReg (c : Config) (nnn : Addr12) : Nibble := if c.qJump then 0#4 else xOfNnn nnn

/-- What SHR and SHL shift: V[y] under Q_SHIFT, else V[x] (R149, R151). -/
def State.shiftSource (s : State) (x y : Nibble) : Byte := if s.cfg.qShift then s.reg y else s.reg x

/-- The skip: pc advances by 2 more when the condition holds, whatever the skipped word is (R120). -/
def State.skipIf (s : State) (cond : Bool) : State := if cond then s.setPc (s.pc + 2#16) else s

/-- V[x] as a logical key code; a larger value is a fault (R127). -/
def State.keyOperand (s : State) (x : Nibble) : Except Fault Nibble :=
  if (s.reg x).toNat ≤ 0xF then .ok ((s.reg x).setWidth 4) else .error (.keyRange (s.reg x) s.instrAddr)

/-- V[x] as a hexadecimal digit; a larger value is a fault (R173). -/
def State.digitOperand (s : State) (x : Nibble) : Except Fault Nat :=
  if (s.reg x).toNat ≤ 0xF then .ok (s.reg x).toNat else .error (.fontDigit (s.reg x) s.instrAddr)

/-- The three decimal digits of a byte, most significant first (R174). -/
def decimalDigits (b : Byte) : List Byte :=
  [BitVec.ofNat 8 (b.toNat / 100), BitVec.ofNat 8 (b.toNat / 10 % 10), BitVec.ofNat 8 (b.toNat % 10)]

/-- After a bulk transfer of V0..Vx: I advances by x + 1 under Q_MEMIDX, else it stays (R175, R176). -/
def State.advanceIndex (s : State) (x : Nibble) : Except Fault State :=
  if s.cfg.qMemIdx then s.writeIndex (s.idx.toNat + x.toNat + 1) else .ok s

/-- KEY_CHOICE: the lowest pressed code, or any of them, by a free value counted round the set (R195; log 7).
It is used only when a key is pressed. -/
def State.chosenKey (s : State) : Nat :=
  match s.cfg.keyChoice with
  | .lowest => s.pressedKeys.headD 0
  | .draw => s.pressedKeys.getD (Config.freeKeyIndex s.draws % s.pressedKeys.length) 0

/-- The choice used up a free value if it was a draw (log 13). -/
def State.countKeyDraw (s : State) : State :=
  match s.cfg.keyChoice with
  | .lowest => s
  | .draw => s.countDraw

end Sys2Proof.Machine
end

