-- ==== Sys2Proof/Machine/Alu.lean ====
section
/-! DEFINITION. LD Vx,nn, ADD Vx,nn and the nine register-register operations (43_alu.md). All arithmetic is mod 256
(R152). -/

namespace Sys2Proof.Machine

/-- LD Vx, nn (R141). -/
def execLdImm (x : Nibble) (nn : Byte) (s : State) : Result := .next (s.setReg x nn)

/-- ADD Vx, nn: no flag (R142). -/
def execAddImm (x : Nibble) (nn : Byte) (s : State) : Result := .next (s.setReg x (s.reg x + nn))

/-- LD Vx, Vy (R143). -/
def execLdReg (x y : Nibble) (s : State) : Result := .next (s.setReg x (s.reg y))

/-- OR Vx, Vy: VF is not reset (R144). -/
def execOrReg (x y : Nibble) (s : State) : Result := .next (s.setReg x (s.reg x ||| s.reg y))

/-- AND Vx, Vy: VF is not reset (R145). -/
def execAndReg (x y : Nibble) (s : State) : Result := .next (s.setReg x (s.reg x &&& s.reg y))

/-- XOR Vx, Vy: VF is not reset (R146). -/
def execXorReg (x y : Nibble) (s : State) : Result := .next (s.setReg x (s.reg x ^^^ s.reg y))

/-- ADD Vx, Vy: VF is the carry (R147). -/
def execAddReg (x y : Nibble) (s : State) : Result :=
  .next (s.setRegFlag x (s.reg x + s.reg y) (carryOut (s.reg x) (s.reg y)))

/-- SUB Vx, Vy: x minus y, VF is no borrow (R148). -/
def execSub (x y : Nibble) (s : State) : Result :=
  .next (s.setRegFlag x (s.reg x - s.reg y) (noBorrow (s.reg x) (s.reg y)))

/-- SHR Vx, Vy: VF is the bit shifted out (R149). -/
def execShr (x y : Nibble) (s : State) : Result :=
  .next (s.setRegFlag x (s.shiftSource x y >>> 1) (lowBit (s.shiftSource x y)))

/-- SUBN Vx, Vy: y minus x, VF is no borrow (R150). -/
def execSubn (x y : Nibble) (s : State) : Result :=
  .next (s.setRegFlag x (s.reg y - s.reg x) (noBorrow (s.reg y) (s.reg x)))

/-- SHL Vx, Vy: VF is the bit shifted out (R151). -/
def execShl (x y : Nibble) (s : State) : Result :=
  .next (s.setRegFlag x (s.shiftSource x y <<< 1) (highBit (s.shiftSource x y)))

end Sys2Proof.Machine
end

