-- ==== Sys2Proof/Machine/Flow.lean ====
section
/-! DEFINITION. SYS, JP, CALL, RET and the jump with offset (41_flow.md). pc is already past the instruction (R13). -/

namespace Sys2Proof.Machine

/-- SYS nnn: no effect (R100; the spec's decision D2, log 21). -/
def execSys (_nnn : Addr12) (s : State) : Result := .next s

/-- JP nnn: pc <- nnn (R101). -/
def execJp (nnn : Addr12) (s : State) : Result := .next (s.setPc (widen nnn))

/-- CALL nnn: push the address after the CALL, then jump (R102). -/
def execCall (nnn : Addr12) (s : State) : Result :=
  match s.push s.pc with
  | .ok s' => .next (s'.setPc (widen nnn))
  | .error f => raise f

/-- RET: pc <- Pop() (R103). -/
def execRet (s : State) : Result :=
  match s.pop with
  | .ok (w, s') => .next (s'.setPc w)
  | .error f => raise f

/-- JP V0, nnn: pc <- nnn + V[0 or x], not reduced mod 4096 (R104). -/
def execJpV0 (nnn : Addr12) (s : State) : Result :=
  .next (s.setPc (widen nnn + (s.reg (offsetReg s.cfg nnn)).setWidth 16))

end Sys2Proof.Machine
end

