-- ==== Sys2Proof/Machine/Index.lean ====
section
/-! DEFINITION. The index register and the memory transfers (44_index_memory.md). -/

namespace Sys2Proof.Machine

/-- LD I, nnn (R170). -/
def execLdI (nnn : Addr12) (s : State) : Result := .next (s.setIdx (widen nnn))

/-- ADD I, Vx: no flag; a sum above 0xFFFF is a fault (R171, R172). -/
def execAddI (x : Nibble) (s : State) : Result := finish (s.writeIndex (s.idx.toNat + (s.reg x).toNat))

/-- LD F, Vx: I <- FONT_BASE + 5 V[x]; no digit is a fault (R173). -/
def execLdF (x : Nibble) (s : State) : Result :=
  match s.digitOperand x with
  | .ok d => finish (s.writeIndex (s.cfg.fontBase.val + d * 5))
  | .error f => raise f

/-- LD B, Vx: the three decimal digits at I, I + 1, I + 2; I is unchanged (R174). -/
def execLdB (x : Nibble) (s : State) : Result :=
  finish (s.storeBytes s.idx.toNat (decimalDigits (s.reg x)))

/-- LD [I], Vx: store V0..Vx from I on, then advance I under Q_MEMIDX (R175). -/
def execLdMemVx (x : Nibble) (s : State) : Result :=
  match s.storeBytes s.idx.toNat (s.regsUpTo x) with
  | .ok s' => finish (s'.advanceIndex x)
  | .error f => raise f

/-- LD Vx, [I]: load V0..Vx from I on, then advance I under Q_MEMIDX (R176). -/
def execLdVxMem (x : Nibble) (s : State) : Result :=
  match s.loadRegs 0 s.idx.toNat (x.toNat + 1) with
  | .ok s' => finish (s'.advanceIndex x)
  | .error f => raise f

end Sys2Proof.Machine
end

