-- ==== Sys2Proof/Machine/Screen.lean ====
section
/-! DEFINITION. CLS and DRW (46_display.md). -/

namespace Sys2Proof.Machine

/-- CLS: every pixel 0, and a redraw is requested (R210, R212). -/
def execCls (s : State) : Result := .next ((s.setDisp Display.blank).setRedraw true)

/-- DRW Vx, Vy, n: the coordinates wrap once, at entry; they are read before VF is written; a redraw is requested
whatever n is (R211, R212). -/
def execDrw (x y n : Nibble) (s : State) : Result :=
  match s.drawRows ((s.reg x).toNat % 64) ((s.reg y).toNat % 32) 0 (s.disp, false) n.toNat with
  | .ok (d, hit) => .next (((s.setDisp d).setReg flagReg (flagByte hit)).setRedraw true)
  | .error f => raise f

end Sys2Proof.Machine
end

