-- ==== Sys2Proof/Machine/Skip.lean ====
section
/-! DEFINITION. The conditional skips (42_skip.md). -/

namespace Sys2Proof.Machine

/-- SE Vx, nn (R121). -/
def execSeImm (x : Nibble) (nn : Byte) (s : State) : Result := .next (s.skipIf (s.reg x == nn))

/-- SNE Vx, nn (R122). -/
def execSneImm (x : Nibble) (nn : Byte) (s : State) : Result := .next (s.skipIf (s.reg x != nn))

/-- SE Vx, Vy (R123). -/
def execSeReg (x y : Nibble) (s : State) : Result := .next (s.skipIf (s.reg x == s.reg y))

/-- SNE Vx, Vy (R124). -/
def execSneReg (x y : Nibble) (s : State) : Result := .next (s.skipIf (s.reg x != s.reg y))

/-- SKP Vx: skip if the key is down (R125, R127). -/
def execSkp (x : Nibble) (s : State) : Result :=
  match s.keyOperand x with
  | .ok k => .next (s.skipIf (s.pressed k))
  | .error f => raise f

/-- SKNP Vx: skip if the key is up (R126, R127). -/
def execSknp (x : Nibble) (s : State) : Result :=
  match s.keyOperand x with
  | .ok k => .next (s.skipIf (!s.pressed k))
  | .error f => raise f

end Sys2Proof.Machine
end

