-- ==== Sys2Proof/Machine/Timers.lean ====
section
/-! DEFINITION. RND, the timer accesses and the key wait (45_timers_keys_random.md). -/

namespace Sys2Proof.Machine

/-- RND Vx, nn: a free byte ANDed with nn (R190; log 18). -/
def execRnd (x : Nibble) (nn : Byte) (s : State) : Result :=
  .next ((s.setReg x (Config.freeByte s.draws &&& nn)).countDraw)

/-- LD Vx, DT (R191). -/
def execLdVxDt (x : Nibble) (s : State) : Result := .next (s.setReg x s.dt)

/-- LD Vx, K: with no key down pc goes back to the instruction itself; else V[x] gets the chosen code (R194, R195). -/
def execLdVxK (x : Nibble) (s : State) : Result :=
  if s.pressedKeys = [] then .next (s.setPc (s.pc - 2#16))
  else .next ((s.setReg x (BitVec.ofNat 8 s.chosenKey)).countKeyDraw)

/-- LD DT, Vx (R192). -/
def execLdDtVx (x : Nibble) (s : State) : Result := .next (s.setDt (s.reg x))

/-- LD ST, Vx (R193). -/
def execLdStVx (x : Nibble) (s : State) : Result := .next (s.setSt (s.reg x))

end Sys2Proof.Machine
end

