-- ==== Sys2Proof/Machine/Unsettled.lean ====
section
/-! DEFINITION. The unsettled words 5XYn and 9XYn with n != 0, under each LOOSE_5_9 (30_encoding.md R79). -/

namespace Sys2Proof.Machine

/-- An unknown word does nothing but be reported; pc stays past it (R78, R235). -/
def State.reportUnknown (s : State) (w : Word) : State := s.report (.unknown w s.instrAddr)

/-- 5XYn: refused, or 5XY0 with n ignored, or reported unknown (R79). -/
def execLoose5 (x y n : Nibble) (s : State) : Result :=
  match s.cfg.loose59 with
  | .refuse => refuse (.unsettled59 (wordXYN 0x5#4 x y n) s.instrAddr)
  | .asN0 => execSeReg x y s
  | .unknown => .next (s.reportUnknown (wordXYN 0x5#4 x y n))

/-- 9XYn: refused, or 9XY0 with n ignored, or reported unknown (R79). -/
def execLoose9 (x y n : Nibble) (s : State) : Result :=
  match s.cfg.loose59 with
  | .refuse => refuse (.unsettled59 (wordXYN 0x9#4 x y n) s.instrAddr)
  | .asN0 => execSneReg x y s
  | .unknown => .next (s.reportUnknown (wordXYN 0x9#4 x y n))

end Sys2Proof.Machine
end

