-- ==== Sys2Proof/Machine/Engine.lean ====
section
/-! DEFINITION. The instruction engine: one complete fetch, decode and execute (30_encoding.md R72). -/

namespace Sys2Proof.Machine

/-- The bytes at pc and pc + 1, in address order, or a fault when the second is outside memory (R52, R55). -/
def State.fetchBytes (s : State) : Except Fault (List Byte) :=
  if s.pc.toNat + 1 < 4096 then .ok [s.byteAt s.pc.toNat, s.byteAt (s.pc.toNat + 1)]
  else .error (.fetchBounds s.pc)

/-- What a decoded word does, pc already past it: an instruction executes, an unknown word is reported and skipped
(R72 step 4, R78). -/
def runDecoded (d : Decoded) (s : State) : Result :=
  match d with
  | .instr i => exec i s
  | .unknown w => .next (s.reportUnknown w)
  | .truncated => raise (.fetchBounds s.instrAddr)

/-- One instruction step (R72): fetch, pc past the word, decode, execute. `truncated` does not happen: the fetch gives
two bytes. -/
def instrStep (s : State) : Result :=
  match s.fetchBytes with
  | .ok bytes => runDecoded (decode bytes) (s.setPc (s.pc + 2#16))
  | .error f => raise f

end Sys2Proof.Machine
end

