-- ==== Sys2Proof/Machine/Sequencer.lean ====
section
/-! DEFINITION. The timing controller: key poll, burst, tick, present, audio gate, in the order of one iteration
(60_exceptions.md R250 to R256). Each step is one agent's move (R238). -/

namespace Sys2Proof.Machine

/-- (a) At most one key notification, the oldest, is taken from the queue and applied; events may have arrived since the
poll before (R254, R256; log 12). -/
def State.pollKeys (s : State) : State :=
  match s.keyQueue ++ Config.freeEvents s.draws with
  | [] => (s.setKeyQueue []).countDraw
  | e :: rest => ((s.applyKeyEvent e).setKeyQueue rest).countDraw

/-- floor(elapsed × INSTR_RATE), a free value unless the rate is 0 (R253, R281; log 11). -/
def State.paceTarget (s : State) : Nat := if s.cfg.instrRate = 0 then 0 else Config.freePace s.draws

/-- (b) begins: as many steps as should have completed by now and have not (R253). -/
def State.startBurst (s : State) : State := (s.setPhase (.burst (s.paceTarget - s.executed))).countDraw

/-- A timer after a tick: one less, and 0 stays 0 (R250). -/
def tickTimer (b : Byte) : Byte := if b = 0#8 then 0#8 else b - 1#8

/-- (c) One frame tick, both timers together (R250). -/
def State.tick (s : State) : State := (s.setDt (tickTimer s.dt)).setSt (tickTimer s.st)

/-- A device operation was called: it fails or not, and a failure is logged, no more (R240; log 19). -/
def State.deviceCalled (s : State) (d : Device) : State :=
  let failures := if Config.freeDeviceFails s.draws then [Report.deviceFailure d] else []
  { s.countDraw with log := s.log ++ failures }

/-- (d) If a redraw is requested, present the display once and clear the request, whether or not it succeeds (R255,
R240). -/
def State.present (s : State) : State :=
  if s.redraw then (s.showFrame.setRedraw false).deviceCalled .display else s

/-- The audio level: on while ST is nonzero (R252). -/
def State.audioOn (s : State) : Bool := s.st != 0#8

/-- The audio sink follows the level: a play or a pause at a transition only (R252; log 14). -/
def State.driveGate (s : State) : State :=
  if s.audioOn = s.gate then s else (s.setGate s.audioOn).deviceCalled .audio

/-- The next move of a running block (R254). -/
def runPhase (s : State) : Result :=
  match s.phase with
  | .poll => .next s.pollKeys.startBurst
  | .burst (k + 1) => instrStep (s.setPhase (.burst k)).countStep
  | .burst 0 => .next (s.tick.setPhase .present)
  | .present => .next (s.present.setPhase .audio)
  | .audio => .next (s.driveGate.setPhase .poll)

end Sys2Proof.Machine
end

