-- ==== Sys2Proof/Machine/Step.lean ====
section
/-! DEFINITION. One step of the block, and how a program word is put where the next step fetches it. -/

namespace Sys2Proof.Machine

/-- One step: only a running block moves; after a fault or a refusal no agent does (10_state.md R36,
60_exceptions.md R231, R236). -/
def step (s : State) : Host.Outcome State Fault Refusal :=
  match s.status with
  | .running => runPhase s
  | .faulted f => raise f
  | .refused r => refuse r

/-- A phase in which the next step is an instruction step: the phase itself if it is one, else a burst of one. -/
def fetchPhase : Phase → Phase
  | .burst (k + 1) => .burst (k + 1)
  | .burst 0 => .burst 1
  | .poll => .burst 1
  | .present => .burst 1
  | .audio => .burst 1

/-- s with the instruction word w placed at pc, running, in a phase in which the next step fetches it (log 10). -/
def State.withFetchWord (s : State) (nbits w : Nat) : State :=
  ((s.placeBytes s.pc.toNat (tableWordBytes (w % 2 ^ nbits))).setStatus .running).setPhase (fetchPhase s.phase)

end Sys2Proof.Machine
end

