-- ==== Sys2Proof/Safety.lean ====
section
/-! DEFINITION. What claims about runs use: the fault codes, a finished run, a fair run, and the invariants of the
block. -/

namespace Sys2Proof.Machine

/-- The spec's own numbering of the faults (60_exceptions.md R232). -/
def Fault.code : Fault → Nat
  | .fetchBounds _ => 1
  | .memBounds _ _ => 2
  | .stackUnderflow _ => 3
  | .stackOverflow _ => 4
  | .indexOverflow _ _ => 5
  | .keyRange _ _ => 6
  | .fontDigit _ _ => 7
  | .fontWrite _ _ => 8

/-- A finished run: about to fetch, at an address a <= 0xFFF, the word of JP a (70_reset_and_hazards.md R275). The
hardware goes on executing the jump and ticking. -/
def State.finished (s : State) : Bool :=
  decide (s.status = .running) && decide (s.fetchBytes = .ok (encode (.jp (s.pc.setWidth 12))) ∧ s.pc.toNat ≤ 0xFFF)

/-- The next move of a running block is the tick (60_exceptions.md R250, R254). -/
def State.ticksNext (s : State) : Prop := s.status = .running ∧ s.phase = .burst 0

/-- The next move of a running block is an instruction step (60_exceptions.md R254). -/
def State.executesNext (s : State) : Prop := s.status = .running ∧ ∃ k, s.phase = .burst (k + 1)

/-- r is an unending run: each state is the step of the one before. -/
def UnendingRun (r : Nat → State) : Prop := ∀ n, step (r n) = .next (r (n + 1))

/-- The timing assumption of 70_reset_and_hazards.md R281: in the unending run r ticks happen infinitely often, and so do
instruction steps when INSTR_RATE > 0. Ticks recur in every unending run; that instruction steps do is a premise on the
free burst lengths, for claims about waits that end (log 29). -/
def FairRun (r : Nat → State) : Prop :=
  UnendingRun r ∧ (∀ n, ∃ m, n ≤ m ∧ (r m).ticksNext) ∧
  (0 < (r 0).cfg.instrRate → ∀ n, ∃ m, n ≤ m ∧ (r m).executesNext)

/-- The stack holds no more than STACK_DEPTH entries (10_state.md R28). -/
def State.stackFits (s : State) : Prop := ∀ d, s.cfg.stackDepth = some d → s.stack.length ≤ d

/-- pc and the return addresses stay in the range a program can reach (10_state.md R26): no target exceeds 0x10FE. -/
def State.pcInRange (s : State) : Prop := s.pc.toNat ≤ 0x10FE ∧ ∀ w ∈ s.stack, w.toNat ≤ 0x1000

/-- What holds at construction and every step keeps: memory is in canonical form, the stack fits, pc is in range. -/
def State.Inv (s : State) : Prop := s.mem.wf s.cfg ∧ s.stackFits ∧ s.pcInRange

end Sys2Proof.Machine
end

