-- ==== Sys2Proof/Certificates/Slice0/Obligations.lean ====
section
/-! DEFINITION. The statements for the provers. Each docstring names the rules of spec/ it formalises, and says where it
rests on a decision the spec marks as its own (D<n> of 92_eei_decisions.md) or on the model's choice (log n). -/

open Sys2Proof Sys2Proof.Machine

namespace Sys2Proof.Claims

/-- MemWrite at address a stores: a is inside memory and not in a protected font region (R51, R54). -/
def Writable (c : Config) (a : Nat) : Prop :=
  a < 4096 ∧ ¬ (c.fontWrite = .fault ∧ c.fontBase.val ≤ a ∧ a < c.fontBase.val + 80)

/-- A, the address of the executing instruction (R13). -/
def addrOf (s : State) : Word := s.pc - 2#16

/-- The answer is a next state that differs from s in general registers only, in which VF holds the flag, V[x] the
result unless x = F, and every other register what it held. -/
def FlaggedResult (s : State) (x : Nibble) (result flag : Nat) (o : Result) : Prop :=
  ∃ t, o = .next t ∧ t = { s with v := t.v } ∧ (t.reg 0xF#4).toNat = flag ∧
    (x ≠ 0xF#4 → (t.reg x).toNat = result) ∧ ∀ y, y ≠ x → y ≠ 0xF#4 → t.reg y = s.reg y

/-- The value I has after a bulk transfer of V0..Vx (R175, R176). -/
def indexAfter (s : State) (x : Nibble) : Word :=
  if s.cfg.qMemIdx then BitVec.ofNat 16 (s.idx.toNat + x.toNat + 1) else s.idx

/-- The sprite of DRW Vx, Vy, n has a set bit at column c, row r: bit 7 - (c - sx) of the byte at I + (r - sy), with
(sx, sy) the wrapped start and everything past the right and bottom edges clipped (R211). -/
def SpriteBit (s : State) (x y n : Nibble) (c : Fin 64) (r : Fin 32) : Prop :=
  (s.reg x).toNat % 64 ≤ c.val ∧ c.val < (s.reg x).toNat % 64 + 8 ∧
  (s.reg y).toNat % 32 ≤ r.val ∧ r.val < (s.reg y).toNat % 32 + n.toNat ∧
  (s.byteAt (s.idx.toNat + (r.val - (s.reg y).toNat % 32))).getLsbD (7 - (c.val - (s.reg x).toNat % 64)) = true

/-- Every sprite row that is not clipped lies inside memory (R211). -/
def SpriteReadable (s : State) (y n : Nibble) : Prop :=
  ∀ k < n.toNat, (s.reg y).toNat % 32 + k < 32 → s.idx.toNat + k < 4096

/-- The general registers an instruction may write (10_state.md R24). -/
def MayWriteReg : Instr → Nibble → Prop
  | .ldImm x _, r | .addImm x _, r | .rnd x _, r => r = x
  | .ldReg x _, r | .orReg x _, r | .andReg x _, r | .xorReg x _, r => r = x
  | .addReg x _, r | .sub x _, r | .shr x _, r | .subn x _, r | .shl x _, r => r = x ∨ r = 0xF#4
  | .drw _ _ _, r => r = 0xF#4
  | .ldVxDt x, r | .ldVxK x, r => r = x
  | .ldVxMem x, r => r ≤ x
  | _, _ => False

/-- The instructions that may write pc beyond the fetch increment (10_state.md R25), and the unsettled words, which may
be skips (R79). -/
def MayWritePc : Instr → Prop
  | .jp _ | .call _ | .ret | .jpV0 _ | .ldVxK _ => True
  | .seImm _ _ | .sneImm _ _ | .seReg _ _ | .sneReg _ _ | .skp _ | .sknp _ => True
  | .loose5 _ _ _ | .loose9 _ _ _ => True
  | _ => False

/-- The instructions that may write I under a configuration (10_state.md R27). -/
def MayWriteIndex (c : Config) : Instr → Prop
  | .ldI _ | .addI _ | .ldF _ => True
  | .ldMemVx _ | .ldVxMem _ => c.qMemIdx = true
  | _ => False

/-- The unknown words (R78): 8XYn, EXnn and FXnn outside the listed sub-opcodes. -/
def IsUnknownWord (w : Word) : Prop :=
  (w.toNat / 4096 = 0x8 ∧ w.toNat % 16 ∈ [0x8, 0x9, 0xA, 0xB, 0xC, 0xD, 0xF]) ∨
  (w.toNat / 4096 = 0xE ∧ w.toNat % 256 ∉ [0x9E, 0xA1]) ∨
  (w.toNat / 4096 = 0xF ∧ w.toNat % 256 ∉ [0x07, 0x0A, 0x15, 0x18, 0x1E, 0x29, 0x33, 0x55, 0x65])

/-- The state in which an instruction executes when an instruction step starts in s with k steps of the burst left
after it: pc past the word (R72), one more step counted and one less to go (R253, R254). -/
def executeState (s : State) (k : Nat) : State :=
  { s with pc := s.pc + 2#16, phase := .burst k, executed := s.executed + 1 }

/-- The word at pc: the byte at pc is bits 15..8 (R55). -/
def WordAtPc (s : State) (w : Word) : Prop :=
  w.toNat = (s.byteAt s.pc.toNat).toNat * 256 + (s.byteAt (s.pc.toNat + 1)).toNat

/-- Two answers that differ in the log only: one run starts with the log of s, the other with l, and both append the
same reports. -/
def SameButLog (s : State) (l : List Report) : Result → Result → Prop
  | .next t, .next u => ∃ r, t.log = s.log ++ r ∧ u = { t with log := l ++ r }
  | .fault f, .fault g => f = g
  | .refused p, .refused q => p = q
  | _, _ => False

end Sys2Proof.Claims

open Sys2Proof.Claims

/-! ### Construction and loading -/

/-- 10_state.md §12 (R39) and 70_reset_and_hazards.md §1: what construction leaves, for every configuration and all launch
parameters. The values but memory's are the spec's decision D18. -/
def Obligations.ConstructionLeavesListedValues : Prop :=
  ∀ (c : Config) (l : Launch), ∃ s, s = State.construct c l ∧
    (∀ (a : Nat) (h : c.fontBase.val ≤ a ∧ a < c.fontBase.val + 80),
      s.byteAt a = c.fontData[a - c.fontBase.val]'(by omega)) ∧
    (∀ a, ¬ (c.fontBase.val ≤ a ∧ a < c.fontBase.val + 80) → s.byteAt a = 0#8) ∧
    s.cfg = c ∧ s.v = l.initV ∧ s.idx = l.initI ∧ s.dt = l.initDt ∧ s.st = l.initSt ∧
    s.pc.toNat = c.programOrigin.val ∧ s.stack = [] ∧ (∀ k, s.pressed k = false) ∧
    (∀ col row, s.disp.pixel col row = false) ∧ s.redraw = false ∧ s.status = .running ∧ s.log = []

/-- 70_reset_and_hazards.md R272: the loader copies the ROM verbatim to PROGRAM_ORIGIN, past FONT_WRITE, and touches
nothing else. The premise is the host's duty (the spec's decision D32). -/
def Obligations.RomLoaderCopiesVerbatim : Prop :=
  ∀ (s : State) (rom : List Byte), s.cfg.programOrigin.val + rom.length ≤ 4096 →
    s.loadRom rom = { s with mem := (s.loadRom rom).mem } ∧
    ∀ a, (s.loadRom rom).byteAt a =
      if s.cfg.programOrigin.val ≤ a ∧ a < s.cfg.programOrigin.val + rom.length
      then rom.getD (a - s.cfg.programOrigin.val) 0#8 else s.byteAt a

/-! ### Encoding -/

/-- 30_encoding.md R71: the fields of a word, as numbers. -/
def Obligations.FieldsAreTheListedBits : Prop :=
  ∀ w : Word,
    (opField w).toNat = w.toNat / 4096 ∧ (xField w).toNat = w.toNat / 256 % 16 ∧
    (yField w).toNat = w.toNat / 16 % 16 ∧ (nField w).toNat = w.toNat % 16 ∧
    (nnField w).toNat = w.toNat % 256 ∧ (nnnField w).toNat = w.toNat % 4096 ∧
    (nnnField w).toNat = (xField w).toNat * 256 + (nnField w).toNat ∧
    (nnField w).toNat = (yField w).toNat * 16 + (nField w).toNat

/-- Decoding the bytes of a well-formed instruction gives it back, every operand included. The patterns are the spec's
own general knowledge (R75, log 16). -/
def Obligations.DecodeReadsBackEveryEncoding : Prop :=
  ∀ i : Instr, i.wellFormed = true → decode (encode i) = .instr i

/-- A word that decodes to an instruction is that instruction's encoding, and the instruction is well-formed: no two
words stand for one instruction and none loses a bit (R75, R77; log 16). -/
def Obligations.EncodeReturnsTheDecodedWord : Prop :=
  ∀ (w : Word) (i : Instr), decodeWord w = .instr i → i.wellFormed = true ∧ encodeWord i = w

/-- 30_encoding.md §3: every word is exactly one instruction or unknown, and the unknown words are those R78 lists (for
5XYn and 9XYn see RegisterSkipsAndUnsettledWords). The patterns are the spec's own general knowledge (log 16). -/
def Obligations.UnknownWordsAreTheListedOnes : Prop :=
  ∀ w : Word, (IsUnknownWord w → decodeWord w = .unknown w) ∧ (¬ IsUnknownWord w → ∃ i, decodeWord w = .instr i)

/-- Words written out from the opcode map of R75 decode to the instructions they stand for, the overlap of R77
included (log 16). -/
def Obligations.SampleWordsDecodeAsWritten : Prop :=
  decodeWord 0x00E0#16 = .instr .cls ∧ decodeWord 0x00EE#16 = .instr .ret ∧
  decodeWord 0x00E1#16 = .instr (.sys 0x0E1#12) ∧ decodeWord 0x2ABC#16 = .instr (.call 0xABC#12) ∧
  decodeWord 0x3342#16 = .instr (.seImm 0x3#4 0x42#8) ∧ decodeWord 0x812E#16 = .instr (.shl 0x1#4 0x2#4) ∧
  decodeWord 0xB2F0#16 = .instr (.jpV0 0x2F0#12) ∧ decodeWord 0xD015#16 = .instr (.drw 0x0#4 0x1#4 0x5#4) ∧
  decodeWord 0xE0A1#16 = .instr (.sknp 0x0#4) ∧ decodeWord 0xF355#16 = .instr (.ldMemVx 0x3#4) ∧
  decodeWord 0x5121#16 = .instr (.loose5 0x1#4 0x2#4 0x1#4) ∧ decodeWord 0x8008#16 = .unknown 0x8008#16

/-! ### The instruction step -/

/-- 20_memory.md R55: the instruction word is assembled big-endian. -/
def Obligations.FetchIsBigEndian : Prop :=
  ∀ s : State, s.pc.toNat + 1 < 4096 → ∃ l w, s.fetchBytes = .ok l ∧ decode l = decodeWord w ∧ WordAtPc s w

/-- 30_encoding.md R72 and R78: an instruction step runs the decoded instruction with pc past it, or reports an unknown
word and goes on; around exec the sequencer counts the step (log 10, 11). -/
def Obligations.StepRunsTheDecodedInstruction : Prop :=
  ∀ (s : State) (k : Nat) (w : Word), s.status = .running → s.phase = .burst (k + 1) →
    s.pc.toNat + 1 < 4096 → WordAtPc s w →
    (∀ i, decodeWord w = .instr i → step s = exec i (executeState s k)) ∧
    (IsUnknownWord w →
      step s = .next { executeState s k with log := s.log ++ [.unknown w s.pc] })

/-- 20_memory.md §1, the fetch bounds (the spec's decision D8 for pc = 0xFFF): a fetch whose second byte is outside
memory is a fault. -/
def Obligations.FetchOutsideMemoryFaults : Prop :=
  ∀ (s : State) (k : Nat), s.status = .running → s.phase = .burst (k + 1) →
    4096 ≤ s.pc.toNat + 1 → step s = .fault (.fetchBounds s.pc)

/-! ### Flow control -/

/-- 41_flow.md, SYS: no effect at all (the spec's decision D2; log 21). -/
def Obligations.SysHasNoEffect : Prop :=
  ∀ (nnn : Addr12) (s : State), exec (.sys nnn) s = .next s

/-- 41_flow.md R101, R104: a jump replaces pc, by nnn, or by the exact sum of nnn and V0 (Q_JUMP) or Vx, and changes
nothing else; a target of 0xFFF or more faults at the next fetch (the spec's decision D8 for 0xFFF). -/
def Obligations.JumpsReplacePc : Prop :=
  ∀ (nnn : Addr12) (s : State), ∃ t u,
    exec (.jp nnn) s = .next t ∧ t = { s with pc := t.pc } ∧ t.pc.toNat = nnn.toNat ∧
    (0xFFF ≤ t.pc.toNat → instrStep t = .fault (.fetchBounds t.pc)) ∧
    exec (.jpV0 nnn) s = .next u ∧ u = { s with pc := u.pc } ∧
    u.pc.toNat = nnn.toNat +
      (if s.cfg.qJump then s.reg 0x0#4 else s.reg (BitVec.ofNat 4 (nnn.toNat / 256))).toNat ∧
    (0xFFF ≤ u.pc.toNat → instrStep u = .fault (.fetchBounds u.pc))

/-- 41_flow.md R102: CALL pushes the address after itself and jumps, while the stack has room; on a full stack of finite
depth it is a fault (10_state.md §5, the spec's decision D5). -/
def Obligations.CallPushesTheReturnAddress : Prop :=
  ∀ (nnn : Addr12) (s : State),
    ((∀ d, s.cfg.stackDepth = some d → s.stack.length < d) →
      exec (.call nnn) s = .next { s with stack := s.stack ++ [s.pc], pc := BitVec.ofNat 16 nnn.toNat }) ∧
    (∀ d, s.cfg.stackDepth = some d → d ≤ s.stack.length →
      exec (.call nnn) s = .fault (.stackOverflow (addrOf s)))

/-- 41_flow.md R103: RET pops the top of the stack into pc; on an empty stack it is a fault (60_exceptions.md §2, the
spec's decision D6). -/
def Obligations.RetPopsIntoPc : Prop :=
  ∀ (s : State),
    (∀ (l : List Word) (w : Word), s.stack = l ++ [w] → exec .ret s = .next { s with stack := l, pc := w }) ∧
    (s.stack = [] → exec .ret s = .fault (.stackUnderflow (addrOf s)))

/-! ### Skips -/

/-- 42_skip.md R120, R121, R122: pc advances by 2 more when the condition holds and nothing else changes. -/
def Obligations.ImmediateSkips : Prop :=
  ∀ (x : Nibble) (nn : Byte) (s : State),
    (s.reg x = nn → exec (.seImm x nn) s = .next { s with pc := s.pc + 2#16 } ∧ exec (.sneImm x nn) s = .next s) ∧
    (s.reg x ≠ nn → exec (.seImm x nn) s = .next s ∧ exec (.sneImm x nn) s = .next { s with pc := s.pc + 2#16 })

/-- 42_skip.md R123, R124: the register skips; and the words 5XYn and 9XYn with n != 0 under each LOOSE_5_9
(30_encoding.md §3, the spec's decision D3): refused, or the same skips, or reported unknown. -/
def Obligations.RegisterSkipsAndUnsettledWords : Prop :=
  ∀ (x y n : Nibble) (s : State), ∃ skipped kept,
    skipped = .next { s with pc := s.pc + 2#16 } ∧ kept = .next s ∧
    exec (.seReg x y) s = (if s.reg x = s.reg y then skipped else kept) ∧
    exec (.sneReg x y) s = (if s.reg x = s.reg y then kept else skipped) ∧
    (s.cfg.loose59 = .asN0 →
      exec (.loose5 x y n) s = exec (.seReg x y) s ∧ exec (.loose9 x y n) s = exec (.sneReg x y) s) ∧
    (s.cfg.loose59 = .unknown →
      exec (.loose5 x y n) s =
        .next { s with log := s.log ++ [.unknown (encodeWord (.loose5 x y n)) (addrOf s)] } ∧
      exec (.loose9 x y n) s =
        .next { s with log := s.log ++ [.unknown (encodeWord (.loose9 x y n)) (addrOf s)] }) ∧
    (s.cfg.loose59 = .refuse →
      exec (.loose5 x y n) s = .refused (.unsettled59 (encodeWord (.loose5 x y n)) (addrOf s)) ∧
      exec (.loose9 x y n) s = .refused (.unsettled59 (encodeWord (.loose9 x y n)) (addrOf s)))

/-- 42_skip.md R125, R126: SKP and SKNP skip by the pressed-key set; a value above 0xF is a fault (42_skip.md, key
operand range, the spec's decision D12). -/
def Obligations.KeySkips : Prop :=
  ∀ (x : Nibble) (s : State),
    (∀ k : Nibble, (s.reg x).toNat = k.toNat →
      exec (.skp x) s = .next { s with pc := if s.pressed k then s.pc + 2#16 else s.pc } ∧
      exec (.sknp x) s = .next { s with pc := if s.pressed k then s.pc else s.pc + 2#16 }) ∧
    (0xF < (s.reg x).toNat →
      exec (.skp x) s = .fault (.keyRange (s.reg x) (addrOf s)) ∧
      exec (.sknp x) s = .fault (.keyRange (s.reg x) (addrOf s)))

/-! ### Arithmetic -/

/-- 43_alu.md R141 to R146: load, add without flag, copy, OR, AND, XOR write V[x] and nothing else; VF is an ordinary
destination and is not reset. -/
def Obligations.UnflaggedOperationsWriteVxOnly : Prop :=
  ∀ (x y : Nibble) (nn : Byte) (s : State),
    exec (.ldImm x nn) s = .next { s with v := s.v.set x.toNat nn } ∧
    exec (.addImm x nn) s =
      .next { s with v := s.v.set x.toNat (BitVec.ofNat 8 (((s.reg x).toNat + nn.toNat) % 256)) } ∧
    exec (.ldReg x y) s = .next { s with v := s.v.set x.toNat (s.reg y) } ∧
    exec (.orReg x y) s = .next { s with v := s.v.set x.toNat (s.reg x ||| s.reg y) } ∧
    exec (.andReg x y) s = .next { s with v := s.v.set x.toNat (s.reg x &&& s.reg y) } ∧
    exec (.xorReg x y) s = .next { s with v := s.v.set x.toNat (s.reg x ^^^ s.reg y) }

/-- 43_alu.md R147, R148, R150: sum and differences mod 256 with carry or no borrow in VF, for every x and y; that VF
holds the flag also when x = F is the order of 43_alu.md, the spec's decision D4 (log 22). -/
def Obligations.AddAndSubtractWithFlag : Prop :=
  ∀ (x y : Nibble) (s : State) (a b : Nat), a = (s.reg x).toNat → b = (s.reg y).toNat →
    FlaggedResult s x ((a + b) % 256) (if 0xFF < a + b then 1 else 0) (exec (.addReg x y) s) ∧
    FlaggedResult s x ((256 + a - b) % 256) (if b ≤ a then 1 else 0) (exec (.sub x y) s) ∧
    FlaggedResult s x ((256 + b - a) % 256) (if a ≤ b then 1 else 0) (exec (.subn x y) s)

/-- 43_alu.md R149, R151: the shifts by one of V[y] (Q_SHIFT) or V[x], with the bit shifted out in VF; for x = F the
order is the spec's decision D4 (log 22). -/
def Obligations.ShiftsWithFlag : Prop :=
  ∀ (x y : Nibble) (s : State) (b : Nat), b = (if s.cfg.qShift then s.reg y else s.reg x).toNat →
    FlaggedResult s x (b / 2) (b % 2) (exec (.shr x y) s) ∧
    FlaggedResult s x (b * 2 % 256) (b / 128) (exec (.shl x y) s)

/-! ### The index register and memory -/

/-- 44_index_memory.md R170: LD I, nnn. -/
def Obligations.LoadIndexWritesNnn : Prop :=
  ∀ (nnn : Addr12) (s : State), ∃ t,
    exec (.ldI nnn) s = .next t ∧ t = { s with idx := t.idx } ∧ t.idx.toNat = nnn.toNat

/-- 44_index_memory.md R172: ADD I, Vx adds without a flag, past 0xFFF too; a sum above 0xFFFF is a fault
(44_index_memory.md, index overflow, the spec's decision D11). -/
def Obligations.IndexAddOrOverflow : Prop :=
  ∀ (x : Nibble) (s : State) (v : Nat), v = s.idx.toNat + (s.reg x).toNat →
    (v ≤ 0xFFFF → exec (.addI x) s = .next { s with idx := BitVec.ofNat 16 v }) ∧
    (0xFFFF < v → exec (.addI x) s = .fault (.indexOverflow v (addrOf s)))

/-- 44_index_memory.md, LD F, Vx: I gets the glyph's address; a value above 0xF is a fault (the spec's decision D13). -/
def Obligations.FontAddressOrFault : Prop :=
  ∀ (x : Nibble) (s : State),
    ((s.reg x).toNat ≤ 0xF → ∃ t, exec (.ldF x) s = .next t ∧ t = { s with idx := t.idx } ∧
      t.idx.toNat = s.cfg.fontBase.val + (s.reg x).toNat * 5) ∧
    (0xF < (s.reg x).toNat → exec (.ldF x) s = .fault (.fontDigit (s.reg x) (addrOf s)))

/-- 44_index_memory.md R174: the three decimal digits go to I, I + 1, I + 2; nothing else changes; the first address
that cannot be written is the fault (FONT_WRITE: 20_memory.md §2, the spec's decision D22). -/
def Obligations.DecimalStore : Prop :=
  ∀ (x : Nibble) (s : State) (v : Nat), v = (s.reg x).toNat →
    ((∀ k < 3, Writable s.cfg (s.idx.toNat + k)) →
      ∃ t, exec (.ldB x) s = .next t ∧ t = { s with mem := t.mem } ∧
        (t.byteAt s.idx.toNat).toNat = v / 100 ∧
        (t.byteAt (s.idx.toNat + 1)).toNat = v / 10 % 10 ∧
        (t.byteAt (s.idx.toNat + 2)).toNat = v % 10 ∧
        ∀ a, ¬ (s.idx.toNat ≤ a ∧ a < s.idx.toNat + 3) → t.byteAt a = s.byteAt a) ∧
    (∀ k < 3, (∀ j < k, Writable s.cfg (s.idx.toNat + j)) → ¬ Writable s.cfg (s.idx.toNat + k) →
      exec (.ldB x) s = .fault (if s.idx.toNat + k < 4096 then .fontWrite (s.idx.toNat + k) (addrOf s)
        else .memBounds (s.idx.toNat + k) (addrOf s)))

/-- 44_index_memory.md R175: V0..Vx go to I..I + x, then I advances under Q_MEMIDX; nothing else changes; the first
address that cannot be written is the fault (FONT_WRITE: 20_memory.md §2, the spec's decision D22). -/
def Obligations.BulkStore : Prop :=
  ∀ (x : Nibble) (s : State),
    ((∀ k ≤ x.toNat, Writable s.cfg (s.idx.toNat + k)) →
      ∃ t, exec (.ldMemVx x) s = .next t ∧ t = { s with mem := t.mem, idx := indexAfter s x } ∧
        (∀ y : Nibble, y.toNat ≤ x.toNat → t.byteAt (s.idx.toNat + y.toNat) = s.reg y) ∧
        ∀ a, ¬ (s.idx.toNat ≤ a ∧ a ≤ s.idx.toNat + x.toNat) → t.byteAt a = s.byteAt a) ∧
    (∀ k ≤ x.toNat, (∀ j < k, Writable s.cfg (s.idx.toNat + j)) → ¬ Writable s.cfg (s.idx.toNat + k) →
      exec (.ldMemVx x) s = .fault (if s.idx.toNat + k < 4096 then .fontWrite (s.idx.toNat + k) (addrOf s)
        else .memBounds (s.idx.toNat + k) (addrOf s)))

/-- 44_index_memory.md R176: V0..Vx are loaded from I..I + x, the font region allowed, then I advances under Q_MEMIDX;
nothing else changes; the first address outside memory is the fault. -/
def Obligations.BulkLoad : Prop :=
  ∀ (x : Nibble) (s : State),
    (s.idx.toNat + x.toNat < 4096 →
      ∃ t, exec (.ldVxMem x) s = .next t ∧ t = { s with v := t.v, idx := indexAfter s x } ∧
        ∀ y : Nibble, t.reg y = if y.toNat ≤ x.toNat then s.byteAt (s.idx.toNat + y.toNat) else s.reg y) ∧
    (4096 ≤ s.idx.toNat + x.toNat →
      exec (.ldVxMem x) s = .fault (.memBounds (max s.idx.toNat 4096) (addrOf s)))

/-- 44_index_memory.md §R177: a bulk store and a bulk load with the same x and I give the registers back, whatever the
registers held in between (the spec's own derived rule). -/
def Obligations.StoreThenLoadReproducesRegisters : Prop :=
  ∀ (x : Nibble) (s : State) (between : Vector Byte 16),
    (∀ k ≤ x.toNat, Writable s.cfg (s.idx.toNat + k)) →
    ∃ t u, exec (.ldMemVx x) s = .next t ∧
      exec (.ldVxMem x) { t with v := between, idx := s.idx } = .next u ∧
      t.idx = indexAfter s x ∧ u.idx = indexAfter s x ∧ u.mem = t.mem ∧
      ∀ y : Nibble, u.reg y = if y.toNat ≤ x.toNat then s.reg y else between[y.toNat]

/-- 20_memory.md §4 (instruction-fetch coherence, the spec's own derived rule): bytes just stored at pc are what the very
next fetch reads. -/
def Obligations.StoreIsSeenByTheNextFetch : Prop :=
  ∀ (x : Nibble) (s : State), 1 ≤ x.toNat → s.pc = s.idx →
    (∀ k ≤ x.toNat, Writable s.cfg (s.idx.toNat + k)) →
    ∃ t, exec (.ldMemVx x) s = .next t ∧ t.fetchBytes = .ok [s.reg 0x0#4, s.reg 0x1#4]

/-! ### Random, timers, keys -/

/-- 45_timers_keys_random.md, RND: a byte no rule constrains, ANDed with nn (the spec's decision D29). It holds whatever
the free value is (log 18). -/
def Obligations.RandomIsMasked : Prop :=
  ∀ (x : Nibble) (nn : Byte) (s : State), ∃ (r : Byte) (t : State),
    exec (.rnd x nn) s = .next t ∧ t = { s with v := s.v.set x.toNat (r &&& nn), draws := s.draws + 1 } ∧
    t.reg x &&& ~~~nn = 0#8

/-- 45_timers_keys_random.md R191, R192, and LD ST: the timers are read and written as they stand. -/
def Obligations.TimerAccess : Prop :=
  ∀ (x : Nibble) (s : State),
    exec (.ldVxDt x) s = .next { s with v := s.v.set x.toNat s.dt } ∧
    exec (.ldDtVx x) s = .next { s with dt := s.reg x } ∧
    exec (.ldStVx x) s = .next { s with st := s.reg x }

/-- 45_timers_keys_random.md R194: with no key down pc goes back to the instruction; else V[x] gets a pressed key's code,
the lowest one when KEY_CHOICE is min, and any one, by a free value, when it is a draw (the spec's decision D14; log 7). -/
def Obligations.KeyWait : Prop :=
  ∀ (x : Nibble) (s : State),
    ((∀ k, s.pressed k = false) → exec (.ldVxK x) s = .next { s with pc := s.pc - 2#16 }) ∧
    ((∃ k, s.pressed k = true) →
      ∃ t, exec (.ldVxK x) s = .next t ∧ t = { s with v := t.v, draws := t.draws } ∧
        ∃ k : Nibble, s.pressed k = true ∧ t.v = s.v.set x.toNat (BitVec.ofNat 8 k.toNat) ∧
          (s.cfg.keyChoice = .lowest → ∀ j : Nibble, j.toNat < k.toNat → s.pressed j = false))

/-! ### The display -/

/-- 46_display.md, CLS: every pixel off, and a redraw requested (the spec's decision D23). -/
def Obligations.ClearBlanksTheDisplay : Prop :=
  ∀ s : State, ∃ t, exec .cls s = .next t ∧ t = { s with disp := t.disp, redraw := true } ∧
    ∀ c r, t.disp.pixel c r = false

/-- 46_display.md R211: DRW XORs the clipped sprite into the display and sets VF to 1 exactly when a lit pixel is turned
off; I and everything else is unchanged; the first unclipped row outside memory is the fault. That a redraw is requested
is the spec's decision D23. -/
def Obligations.DrawXorsTheClippedSprite : Prop :=
  ∀ (x y n : Nibble) (s : State),
    (SpriteReadable s y n →
      ∃ t, exec (.drw x y n) s = .next t ∧
        t = { s with disp := t.disp, v := s.v.set 15 (t.reg 0xF#4), redraw := true } ∧
        (∀ c r, (t.disp.pixel c r = true ↔ ¬ (s.disp.pixel c r = true ↔ SpriteBit s x y n c r))) ∧
        ((∃ c r, s.disp.pixel c r = true ∧ SpriteBit s x y n c r) → t.reg 0xF#4 = 1#8) ∧
        ((¬ ∃ c r, s.disp.pixel c r = true ∧ SpriteBit s x y n c r) → t.reg 0xF#4 = 0#8)) ∧
    (∀ k < n.toNat, (s.reg y).toNat % 32 + k < 32 → 4096 ≤ s.idx.toNat + k →
      (∀ j < k, s.idx.toNat + j < 4096) →
      exec (.drw x y n) s = .fault (.memBounds (s.idx.toNat + k) (addrOf s)))

/-- 46_display.md §R211 and the property S8 of 95_test_vectors.md: drawing a sprite twice at one place restores the
display, and the second draw reports a collision exactly when the first turned a pixel on. -/
def Obligations.DrawTwiceRestoresTheDisplay : Prop :=
  ∀ (x y n : Nibble) (s : State), SpriteReadable s y n →
    ∃ t u, exec (.drw x y n) s = .next t ∧ exec (.drw x y n) { t with v := s.v } = .next u ∧
      u.disp = s.disp ∧
      (u.reg 0xF#4 = 1#8 ↔ ∃ c r, SpriteBit s x y n c r ∧ s.disp.pixel c r = false)

/-! ### Frames: what an instruction leaves unchanged -/

/-- 20_memory.md §3 (R56): only FX33 and FX55 store; every other instruction leaves every byte of memory as it was. -/
def Obligations.OtherInstructionsKeepMemory : Prop :=
  ∀ (i : Instr) (s t : State), (∀ x, i ≠ .ldB x) → (∀ x, i ≠ .ldMemVx x) → exec i s = .next t →
    ∀ a, t.byteAt a = s.byteAt a

/-- 44_index_memory.md R174, R175: a store changes no byte outside the ones at I it stores to, no register, no timer, no
stack entry and no pixel. -/
def Obligations.StoresChangeOnlyTheirBytes : Prop :=
  ∀ (x : Nibble) (s t : State),
    (exec (.ldB x) s = .next t →
      t = { s with mem := t.mem } ∧
      ∀ a, ¬ (s.idx.toNat ≤ a ∧ a < s.idx.toNat + 3) → t.byteAt a = s.byteAt a) ∧
    (exec (.ldMemVx x) s = .next t →
      t = { s with mem := t.mem, idx := t.idx } ∧
      ∀ a, ¬ (s.idx.toNat ≤ a ∧ a < s.idx.toNat + (x.toNat + 1)) → t.byteAt a = s.byteAt a)

/-- 10_state.md §2 (R24): a general register an instruction does not name as a destination, and is not VF of a
flag-writing one, keeps its value. -/
def Obligations.OtherRegistersAreKept : Prop :=
  ∀ (i : Instr) (s t : State) (r : Nibble), exec i s = .next t → ¬ MayWriteReg i r → t.reg r = s.reg r

/-- 10_state.md §4 (R27): I is written by ANNN, FX1E, FX29, and under Q_MEMIDX by FX55 and FX65, only. -/
def Obligations.OtherInstructionsKeepIndex : Prop :=
  ∀ (i : Instr) (s t : State), exec i s = .next t → ¬ MayWriteIndex s.cfg i → t.idx = s.idx

/-- 10_state.md §3 (R25): pc is written beyond the fetch increment by skips, jumps, CALL, RET and LD Vx,K only (and by the
unsettled words, log 20). -/
def Obligations.OtherInstructionsKeepPc : Prop :=
  ∀ (i : Instr) (s t : State), exec i s = .next t → ¬ MayWritePc i → t.pc = s.pc

/-- 10_state.md §§5 to 7 (R29, R30, R31): the stack is changed by CALL and RET only, the display by CLS and DRW only, DT by
FX15 and ST by FX18 only. That the redraw request is set by CLS and DRW only is the spec's decision D23 (10_state.md §10;
log 28). -/
def Obligations.StackDisplayAndTimersFrame : Prop :=
  ∀ (i : Instr) (s t : State), exec i s = .next t →
    ((∀ nnn, i ≠ .call nnn) → i ≠ .ret → t.stack = s.stack) ∧
    (i ≠ .cls → (∀ x y n, i ≠ .drw x y n) → t.disp = s.disp ∧ t.redraw = s.redraw) ∧
    ((∀ x, i ≠ .ldDtVx x) → t.dt = s.dt) ∧ ((∀ x, i ≠ .ldStVx x) → t.st = s.st)

/-- 10_state.md R21, R32, R33, 60_exceptions.md R254: no instruction changes the configuration, the pressed-key set, the
status, the sequencer's state or the devices' (log 10 to 15), nor the log but for an unsettled word reported unknown. -/
def Obligations.InstructionsKeepTheOtherAgentsState : Prop :=
  ∀ (i : Instr) (s t : State), exec i s = .next t →
    t.cfg = s.cfg ∧ t.keys = s.keys ∧ t.status = s.status ∧ t.phase = s.phase ∧ t.keyQueue = s.keyQueue ∧
    t.executed = s.executed ∧ t.shown = s.shown ∧ t.presents = s.presents ∧ t.gate = s.gate ∧
    ((∀ x y n, i ≠ .loose5 x y n) → (∀ x y n, i ≠ .loose9 x y n) → t.log = s.log)

/-! ### The sequencer -/

/-- 60_exceptions.md §6, the tick: after the burst DT and ST each fall by 1, and 0 stays 0 (the spec's decision D15);
nothing else changes but the phase (log 10). -/
def Obligations.TickDecrementsBothTimers : Prop :=
  ∀ s : State, s.status = .running → s.phase = .burst 0 →
    step s = .next { s with dt := BitVec.ofNat 8 (s.dt.toNat - 1), st := BitVec.ofNat 8 (s.st.toNat - 1),
                            phase := .present }

/-- 60_exceptions.md R255: with a redraw pending the display is handed over once and the request cleared; with none
nothing is presented. -/
def Obligations.PresentOncePerRequest : Prop :=
  ∀ s : State, s.status = .running → s.phase = .present →
    ∃ t, step s = .next t ∧ t.redraw = false ∧ t.disp = s.disp ∧ t.phase = .audio ∧
      (s.redraw = true → t.shown = some s.disp ∧ t.presents = s.presents + 1) ∧
      (s.redraw = false → t.shown = s.shown ∧ t.presents = s.presents)

/-- 60_exceptions.md §3 and §6: a present that is called and fails appends one DeviceFailure(display), a play or pause
that is called and fails one DeviceFailure(audio), and nothing is appended otherwise; a failure changes nothing else
(R240). The sink is called at transitions of the level ST != 0 only (the spec's decisions D24, D31; log 14). Whether the
operation fails is the free value; the statement holds whatever it is (log 19). -/
def Obligations.DeviceFailuresAreOnlyLogged : Prop :=
  ∀ (s : State) (fails : Bool), s.status = .running → fails = Config.freeDeviceFails s.draws →
    (s.phase = .present → ∃ t, step s = .next t ∧
      t = { s with redraw := false, shown := t.shown, presents := t.presents, phase := .audio, draws := t.draws,
                   log := s.log ++ if s.redraw = true ∧ fails = true then [.deviceFailure .display] else [] }) ∧
    (s.phase = .audio → ∃ t, step s = .next t ∧
      t = { s with gate := decide (s.st ≠ 0#8), phase := .poll, draws := t.draws,
                   log := s.log ++ if s.gate ≠ decide (s.st ≠ 0#8) ∧ fails = true then [.deviceFailure .audio] else [] })

/-- 10_state.md R32: the pressed-key set changes by press and release notifications only: a poll without an event keeps
it; else the oldest event decides: a press adds the code of its key, a release removes it, an unmapped key changes
nothing; no instruction and no other move of the sequencer writes the set. -/
def Obligations.KeysChangeByNotificationsOnly : Prop :=
  (∀ s : State, s.status = .running → s.phase = .poll →
    ∃ t arrived, step s = .next t ∧
      (s.keyQueue ++ arrived = [] → t.keys = s.keys) ∧
      ∀ e q, s.keyQueue ++ arrived = e :: q →
        (∀ p c, e = .press p → keyCodeOf s.cfg p = some c →
          ∀ k, t.pressed k = if k = c then true else s.pressed k) ∧
        (∀ p c, e = .release p → keyCodeOf s.cfg p = some c →
          ∀ k, t.pressed k = if k = c then false else s.pressed k) ∧
        (∀ p, (e = .press p ∨ e = .release p) → keyCodeOf s.cfg p = none → t.keys = s.keys)) ∧
  (∀ (i : Instr) (s t : State), exec i s = .next t → t.keys = s.keys) ∧
  (∀ s t : State, s.phase ≠ .poll → step s = .next t → t.keys = s.keys)

/-- 60_exceptions.md §6 (key notifications, frame iteration): the queue is first in, first out, a poll takes at most one
event from it, and a burst of k >= 0 steps follows; events may arrive at any time and k is open (free values, log 11,
12). -/
def Obligations.QueueIsDrainedInOrder : Prop :=
  ∀ s : State, s.status = .running → s.phase = .poll →
    ∃ t arrived, step s = .next t ∧
      ((s.keyQueue ++ arrived = [] ∧ t.keyQueue = [] ∧ t.keys = s.keys) ∨
       ∃ e, s.keyQueue ++ arrived = e :: t.keyQueue ∧ t.keys = (s.applyKeyEvent e).keys) ∧
      (∃ k, t.phase = .burst k) ∧
      t = { s with keys := t.keys, keyQueue := t.keyQueue, phase := t.phase, draws := t.draws }

/-- 60_exceptions.md §6 (the spec's decisions D16, D17): once the burst is over, three moves end the iteration: exactly
one tick, at most one present, the audio gate (log 10). -/
def Obligations.IterationEndsWithOneTick : Prop :=
  ∀ s : State, s.status = .running → s.phase = .burst 0 →
    ∃ u, Host.Core.run Sys2Proof.core 3 s = .next u ∧ u.phase = .poll ∧
      u.dt.toNat = s.dt.toNat - 1 ∧ u.st.toNat = s.st.toNat - 1 ∧ u.redraw = false ∧
      u.presents = s.presents + (if s.redraw then 1 else 0) ∧ u.gate = decide (u.st ≠ 0#8) ∧
      u.pc = s.pc ∧ u.v = s.v ∧ u.idx = s.idx ∧ u.mem = s.mem ∧ u.stack = s.stack ∧ u.keys = s.keys ∧ u.disp = s.disp

/-- 60_exceptions.md §6 (R251, R253, R254; the spec's decision D16): an instruction step that completes uses up one step of
the burst and is counted, and no tick, present, key notification or audio move happens in it: DT changes only when the
word at pc is LD DT, Vx and ST only when it is LD ST, Vx, and a pending redraw stays pending (log 10, 11). -/
def Obligations.InstructionStepsUseUpTheBurst : Prop :=
  ∀ (s t : State) (k : Nat), s.phase = .burst (k + 1) → step s = .next t →
    t.phase = .burst k ∧ t.executed = s.executed + 1 ∧ t.presents = s.presents ∧ t.shown = s.shown ∧
    t.keys = s.keys ∧ t.keyQueue = s.keyQueue ∧ t.gate = s.gate ∧ (s.redraw = true → t.redraw = true) ∧
    ∀ w, WordAtPc s w →
      ((∀ x, decodeWord w ≠ .instr (.ldDtVx x)) → t.dt = s.dt) ∧
      ((∀ x, decodeWord w ≠ .instr (.ldStVx x)) → t.st = s.st)

/-- 70_reset_and_hazards.md §5 (the spec's own derived rule): with INSTR_RATE = 0, and no burst under way, no instruction
ever executes: every move keeps it so and leaves what instructions write. -/
def Obligations.NoInstructionAtRateZero : Prop :=
  ∀ s t : State, s.cfg.instrRate = 0 → (∀ k, s.phase ≠ .burst (k + 1)) → step s = .next t →
    (∀ k, t.phase ≠ .burst (k + 1)) ∧ t.cfg.instrRate = 0 ∧ t.executed = s.executed ∧
    t.pc = s.pc ∧ t.v = s.v ∧ t.idx = s.idx ∧ t.mem = s.mem ∧ t.stack = s.stack ∧ t.disp = s.disp

/-! ### The whole machine -/

/-- 60_exceptions.md §2 (the spec's decisions D5 to D8, D11 to D13, D22): an instruction raises a fault only in the cases
the table of R232 lists, with the information it lists, and is refused only as an unsettled word under refuse. -/
def Obligations.FaultsHaveTheirListedCauses : Prop :=
  ∀ (i : Instr) (s : State),
    (∀ pc, exec i s ≠ .fault (.fetchBounds pc)) ∧
    (∀ a at', exec i s = .fault (.memBounds a at') → 4096 ≤ a ∧ at' = addrOf s ∧
      ((∃ x y n, i = .drw x y n) ∨ (∃ x, i = .ldB x ∨ i = .ldMemVx x ∨ i = .ldVxMem x))) ∧
    (∀ at', exec i s = .fault (.stackUnderflow at') → i = .ret ∧ s.stack = [] ∧ at' = addrOf s) ∧
    (∀ at', exec i s = .fault (.stackOverflow at') →
      (∃ nnn, i = .call nnn) ∧ (∃ d, s.cfg.stackDepth = some d ∧ d ≤ s.stack.length) ∧ at' = addrOf s) ∧
    (∀ v at', exec i s = .fault (.indexOverflow v at') → 0xFFFF < v ∧ at' = addrOf s ∧
      ∃ x, i = .addI x ∨ (s.cfg.qMemIdx = true ∧ (i = .ldMemVx x ∨ i = .ldVxMem x))) ∧
    (∀ v at', exec i s = .fault (.keyRange v at') → 0xF < v.toNat ∧ at' = addrOf s ∧
      ∃ x, s.reg x = v ∧ (i = .skp x ∨ i = .sknp x)) ∧
    (∀ v at', exec i s = .fault (.fontDigit v at') → 0xF < v.toNat ∧ at' = addrOf s ∧
      ∃ x, s.reg x = v ∧ i = .ldF x) ∧
    (∀ a at', exec i s = .fault (.fontWrite a at') → s.cfg.fontWrite = .fault ∧ s.cfg.fontBase.val ≤ a ∧
      a < s.cfg.fontBase.val + 80 ∧ at' = addrOf s ∧ ∃ x, i = .ldB x ∨ i = .ldMemVx x) ∧
    (∀ r, exec i s = .refused r → s.cfg.loose59 = .refuse ∧ ∃ x y n, i = .loose5 x y n ∨ i = .loose9 x y n)

/-- 60_exceptions.md §2 and R254: a running block stops in an instruction step of a burst only: every other move of the
sequencer completes. -/
def Obligations.OnlyInstructionStepsStop : Prop :=
  ∀ s : State, s.status = .running → (∀ k, s.phase ≠ .burst (k + 1)) → ∃ t, step s = .next t ∧ t.status = .running

/-- 10_state.md §10 and 60_exceptions.md §§2, 3 (R231; the spec's decision D7): a block that faulted or was refused takes
no further step, whatever the rest of its state; a fault leaves pc as the instruction had it, at A + 2, and a FetchBounds
fault leaves it at A; the state after a fault is never a finished run, whatever memory, V and the display hold (log 17). -/
def Obligations.StoppedBlockStaysStopped : Prop :=
  ∀ s : State,
    (∀ f, s.status = .faulted f → step s = .fault f) ∧ (∀ r, s.status = .refused r → step s = .refused r) ∧
    (∀ i f, exec i s = .fault f → f.pcAfter = s.pc) ∧
    (∀ f k, s.status = .running → s.phase = .burst (k + 1) → step s = .fault f →
      f.pcAfter = if s.pc.toNat + 1 < 4096 then s.pc + 2#16 else s.pc) ∧
    (∀ f m v d, ∃ t, t = s.afterFault f m v d ∧ t.pc = f.pcAfter ∧ step t = .fault f ∧ t.finished = false)

/-- 10_state.md §9 (the spec's decision D30): no step changes the configuration (log 1). -/
def Obligations.ConfigurationIsImmutable : Prop :=
  ∀ s t : State, step s = .next t → t.cfg = s.cfg

/-- The model's canonical form of memory (log 9): every step keeps it. -/
def Obligations.MemoryStaysCanonical : Prop :=
  ∀ s t : State, s.mem.wf s.cfg → step s = .next t → t.mem.wf t.cfg

/-- The model's canonical form of memory (log 9): two memories in it that read alike are equal. -/
def Obligations.CanonicalMemoriesThatReadAlikeAreEqual : Prop :=
  ∀ (c : Config) (m m' : Memory), m.wf c → m'.wf c → (∀ a < 4096, m.read c a = m'.read c a) → m = m'

/-- 10_state.md §5 (the spec's decision D5): no step makes the stack exceed STACK_DEPTH. -/
def Obligations.StackNeverExceedsItsDepth : Prop :=
  ∀ s t : State, s.stackFits → step s = .next t → t.stackFits

/-- 10_state.md §3 (R26; the spec's decisions D9, D10 and its own derivation): pc never exceeds 0x10FE, so it never wraps:
every step keeps the range, given that the return addresses are in theirs. -/
def Obligations.PcStaysInRange : Prop :=
  ∀ s t : State, s.pcInRange → step s = .next t → t.pcInRange

/-- Construction meets the invariants of MemoryStaysCanonical, StackNeverExceedsItsDepth and PcStaysInRange, for every
configuration and all launch parameters. -/
def Obligations.ConstructionMeetsTheInvariants : Prop :=
  ∀ (c : Config) (l : Launch), (State.construct c l).Inv

/-- 10_state.md §10 (R37; the spec's decision D24): the log is output only: a run with another log takes the same steps,
stops for the same reasons and appends the same reports. -/
def Obligations.LogIsOutputOnly : Prop :=
  ∀ (s : State) (l : List Report), SameButLog s l (step s) (step { s with log := l })

/-- 46_display.md R212 (the spec's decision D23 on redraw): no instruction but DRW reads the display: with another display
every other instruction does the same and, but for CLS, leaves that display as it is. -/
def Obligations.OnlyDrawReadsTheDisplay : Prop :=
  ∀ (i : Instr) (s t : State) (d : Display), (∀ x y n, i ≠ .drw x y n) → exec i s = .next t →
    exec i { s with disp := d } = .next { t with disp := if i = .cls then t.disp else d }
end

