-- ==== Sys2Proof/Laws/State.lean ====
section
/-! SUPPORT. What each field of the state is after each update of one field. -/

namespace Sys2Proof.Machine

variable (s : State)

/-! ### setMem -/

@[simp] theorem State.setMem_cfg (m : Memory) : (s.setMem m).cfg = s.cfg := rfl
@[simp] theorem State.setMem_mem (m : Memory) : (s.setMem m).mem = m := rfl
@[simp] theorem State.setMem_v (m : Memory) : (s.setMem m).v = s.v := rfl
@[simp] theorem State.setMem_idx (m : Memory) : (s.setMem m).idx = s.idx := rfl
@[simp] theorem State.setMem_pc (m : Memory) : (s.setMem m).pc = s.pc := rfl
@[simp] theorem State.setMem_stack (m : Memory) : (s.setMem m).stack = s.stack := rfl
@[simp] theorem State.setMem_dt (m : Memory) : (s.setMem m).dt = s.dt := rfl
@[simp] theorem State.setMem_st (m : Memory) : (s.setMem m).st = s.st := rfl
@[simp] theorem State.setMem_keys (m : Memory) : (s.setMem m).keys = s.keys := rfl
@[simp] theorem State.setMem_disp (m : Memory) : (s.setMem m).disp = s.disp := rfl
@[simp] theorem State.setMem_redraw (m : Memory) : (s.setMem m).redraw = s.redraw := rfl
@[simp] theorem State.setMem_status (m : Memory) : (s.setMem m).status = s.status := rfl
@[simp] theorem State.setMem_log (m : Memory) : (s.setMem m).log = s.log := rfl
@[simp] theorem State.setMem_phase (m : Memory) : (s.setMem m).phase = s.phase := rfl
@[simp] theorem State.setMem_keyQueue (m : Memory) : (s.setMem m).keyQueue = s.keyQueue := rfl
@[simp] theorem State.setMem_executed (m : Memory) : (s.setMem m).executed = s.executed := rfl
@[simp] theorem State.setMem_shown (m : Memory) : (s.setMem m).shown = s.shown := rfl
@[simp] theorem State.setMem_presents (m : Memory) : (s.setMem m).presents = s.presents := rfl
@[simp] theorem State.setMem_gate (m : Memory) : (s.setMem m).gate = s.gate := rfl
@[simp] theorem State.setMem_draws (m : Memory) : (s.setMem m).draws = s.draws := rfl

/-! ### setReg -/

@[simp] theorem State.setReg_cfg (x : Nibble) (b : Byte) : (s.setReg x b).cfg = s.cfg := rfl
@[simp] theorem State.setReg_mem (x : Nibble) (b : Byte) : (s.setReg x b).mem = s.mem := rfl
@[simp] theorem State.setReg_v (x : Nibble) (b : Byte) : (s.setReg x b).v = s.v.set x.toNat b := rfl
@[simp] theorem State.setReg_idx (x : Nibble) (b : Byte) : (s.setReg x b).idx = s.idx := rfl
@[simp] theorem State.setReg_pc (x : Nibble) (b : Byte) : (s.setReg x b).pc = s.pc := rfl
@[simp] theorem State.setReg_stack (x : Nibble) (b : Byte) : (s.setReg x b).stack = s.stack := rfl
@[simp] theorem State.setReg_dt (x : Nibble) (b : Byte) : (s.setReg x b).dt = s.dt := rfl
@[simp] theorem State.setReg_st (x : Nibble) (b : Byte) : (s.setReg x b).st = s.st := rfl
@[simp] theorem State.setReg_keys (x : Nibble) (b : Byte) : (s.setReg x b).keys = s.keys := rfl
@[simp] theorem State.setReg_disp (x : Nibble) (b : Byte) : (s.setReg x b).disp = s.disp := rfl
@[simp] theorem State.setReg_redraw (x : Nibble) (b : Byte) : (s.setReg x b).redraw = s.redraw := rfl
@[simp] theorem State.setReg_status (x : Nibble) (b : Byte) : (s.setReg x b).status = s.status := rfl
@[simp] theorem State.setReg_log (x : Nibble) (b : Byte) : (s.setReg x b).log = s.log := rfl
@[simp] theorem State.setReg_phase (x : Nibble) (b : Byte) : (s.setReg x b).phase = s.phase := rfl
@[simp] theorem State.setReg_keyQueue (x : Nibble) (b : Byte) : (s.setReg x b).keyQueue = s.keyQueue := rfl
@[simp] theorem State.setReg_executed (x : Nibble) (b : Byte) : (s.setReg x b).executed = s.executed := rfl
@[simp] theorem State.setReg_shown (x : Nibble) (b : Byte) : (s.setReg x b).shown = s.shown := rfl
@[simp] theorem State.setReg_presents (x : Nibble) (b : Byte) : (s.setReg x b).presents = s.presents := rfl
@[simp] theorem State.setReg_gate (x : Nibble) (b : Byte) : (s.setReg x b).gate = s.gate := rfl
@[simp] theorem State.setReg_draws (x : Nibble) (b : Byte) : (s.setReg x b).draws = s.draws := rfl

/-! ### setIdx -/

@[simp] theorem State.setIdx_cfg (w : Word) : (s.setIdx w).cfg = s.cfg := rfl
@[simp] theorem State.setIdx_mem (w : Word) : (s.setIdx w).mem = s.mem := rfl
@[simp] theorem State.setIdx_v (w : Word) : (s.setIdx w).v = s.v := rfl
@[simp] theorem State.setIdx_idx (w : Word) : (s.setIdx w).idx = w := rfl
@[simp] theorem State.setIdx_pc (w : Word) : (s.setIdx w).pc = s.pc := rfl
@[simp] theorem State.setIdx_stack (w : Word) : (s.setIdx w).stack = s.stack := rfl
@[simp] theorem State.setIdx_dt (w : Word) : (s.setIdx w).dt = s.dt := rfl
@[simp] theorem State.setIdx_st (w : Word) : (s.setIdx w).st = s.st := rfl
@[simp] theorem State.setIdx_keys (w : Word) : (s.setIdx w).keys = s.keys := rfl
@[simp] theorem State.setIdx_disp (w : Word) : (s.setIdx w).disp = s.disp := rfl
@[simp] theorem State.setIdx_redraw (w : Word) : (s.setIdx w).redraw = s.redraw := rfl
@[simp] theorem State.setIdx_status (w : Word) : (s.setIdx w).status = s.status := rfl
@[simp] theorem State.setIdx_log (w : Word) : (s.setIdx w).log = s.log := rfl
@[simp] theorem State.setIdx_phase (w : Word) : (s.setIdx w).phase = s.phase := rfl
@[simp] theorem State.setIdx_keyQueue (w : Word) : (s.setIdx w).keyQueue = s.keyQueue := rfl
@[simp] theorem State.setIdx_executed (w : Word) : (s.setIdx w).executed = s.executed := rfl
@[simp] theorem State.setIdx_shown (w : Word) : (s.setIdx w).shown = s.shown := rfl
@[simp] theorem State.setIdx_presents (w : Word) : (s.setIdx w).presents = s.presents := rfl
@[simp] theorem State.setIdx_gate (w : Word) : (s.setIdx w).gate = s.gate := rfl
@[simp] theorem State.setIdx_draws (w : Word) : (s.setIdx w).draws = s.draws := rfl

/-! ### setPc -/

@[simp] theorem State.setPc_cfg (w : Word) : (s.setPc w).cfg = s.cfg := rfl
@[simp] theorem State.setPc_mem (w : Word) : (s.setPc w).mem = s.mem := rfl
@[simp] theorem State.setPc_v (w : Word) : (s.setPc w).v = s.v := rfl
@[simp] theorem State.setPc_idx (w : Word) : (s.setPc w).idx = s.idx := rfl
@[simp] theorem State.setPc_pc (w : Word) : (s.setPc w).pc = w := rfl
@[simp] theorem State.setPc_stack (w : Word) : (s.setPc w).stack = s.stack := rfl
@[simp] theorem State.setPc_dt (w : Word) : (s.setPc w).dt = s.dt := rfl
@[simp] theorem State.setPc_st (w : Word) : (s.setPc w).st = s.st := rfl
@[simp] theorem State.setPc_keys (w : Word) : (s.setPc w).keys = s.keys := rfl
@[simp] theorem State.setPc_disp (w : Word) : (s.setPc w).disp = s.disp := rfl
@[simp] theorem State.setPc_redraw (w : Word) : (s.setPc w).redraw = s.redraw := rfl
@[simp] theorem State.setPc_status (w : Word) : (s.setPc w).status = s.status := rfl
@[simp] theorem State.setPc_log (w : Word) : (s.setPc w).log = s.log := rfl
@[simp] theorem State.setPc_phase (w : Word) : (s.setPc w).phase = s.phase := rfl
@[simp] theorem State.setPc_keyQueue (w : Word) : (s.setPc w).keyQueue = s.keyQueue := rfl
@[simp] theorem State.setPc_executed (w : Word) : (s.setPc w).executed = s.executed := rfl
@[simp] theorem State.setPc_shown (w : Word) : (s.setPc w).shown = s.shown := rfl
@[simp] theorem State.setPc_presents (w : Word) : (s.setPc w).presents = s.presents := rfl
@[simp] theorem State.setPc_gate (w : Word) : (s.setPc w).gate = s.gate := rfl
@[simp] theorem State.setPc_draws (w : Word) : (s.setPc w).draws = s.draws := rfl

/-! ### setStack -/

@[simp] theorem State.setStack_cfg (l : List Word) : (s.setStack l).cfg = s.cfg := rfl
@[simp] theorem State.setStack_mem (l : List Word) : (s.setStack l).mem = s.mem := rfl
@[simp] theorem State.setStack_v (l : List Word) : (s.setStack l).v = s.v := rfl
@[simp] theorem State.setStack_idx (l : List Word) : (s.setStack l).idx = s.idx := rfl
@[simp] theorem State.setStack_pc (l : List Word) : (s.setStack l).pc = s.pc := rfl
@[simp] theorem State.setStack_stack (l : List Word) : (s.setStack l).stack = l := rfl
@[simp] theorem State.setStack_dt (l : List Word) : (s.setStack l).dt = s.dt := rfl
@[simp] theorem State.setStack_st (l : List Word) : (s.setStack l).st = s.st := rfl
@[simp] theorem State.setStack_keys (l : List Word) : (s.setStack l).keys = s.keys := rfl
@[simp] theorem State.setStack_disp (l : List Word) : (s.setStack l).disp = s.disp := rfl
@[simp] theorem State.setStack_redraw (l : List Word) : (s.setStack l).redraw = s.redraw := rfl
@[simp] theorem State.setStack_status (l : List Word) : (s.setStack l).status = s.status := rfl
@[simp] theorem State.setStack_log (l : List Word) : (s.setStack l).log = s.log := rfl
@[simp] theorem State.setStack_phase (l : List Word) : (s.setStack l).phase = s.phase := rfl
@[simp] theorem State.setStack_keyQueue (l : List Word) : (s.setStack l).keyQueue = s.keyQueue := rfl
@[simp] theorem State.setStack_executed (l : List Word) : (s.setStack l).executed = s.executed := rfl
@[simp] theorem State.setStack_shown (l : List Word) : (s.setStack l).shown = s.shown := rfl
@[simp] theorem State.setStack_presents (l : List Word) : (s.setStack l).presents = s.presents := rfl
@[simp] theorem State.setStack_gate (l : List Word) : (s.setStack l).gate = s.gate := rfl
@[simp] theorem State.setStack_draws (l : List Word) : (s.setStack l).draws = s.draws := rfl

/-! ### setDt -/

@[simp] theorem State.setDt_cfg (b : Byte) : (s.setDt b).cfg = s.cfg := rfl
@[simp] theorem State.setDt_mem (b : Byte) : (s.setDt b).mem = s.mem := rfl
@[simp] theorem State.setDt_v (b : Byte) : (s.setDt b).v = s.v := rfl
@[simp] theorem State.setDt_idx (b : Byte) : (s.setDt b).idx = s.idx := rfl
@[simp] theorem State.setDt_pc (b : Byte) : (s.setDt b).pc = s.pc := rfl
@[simp] theorem State.setDt_stack (b : Byte) : (s.setDt b).stack = s.stack := rfl
@[simp] theorem State.setDt_dt (b : Byte) : (s.setDt b).dt = b := rfl
@[simp] theorem State.setDt_st (b : Byte) : (s.setDt b).st = s.st := rfl
@[simp] theorem State.setDt_keys (b : Byte) : (s.setDt b).keys = s.keys := rfl
@[simp] theorem State.setDt_disp (b : Byte) : (s.setDt b).disp = s.disp := rfl
@[simp] theorem State.setDt_redraw (b : Byte) : (s.setDt b).redraw = s.redraw := rfl
@[simp] theorem State.setDt_status (b : Byte) : (s.setDt b).status = s.status := rfl
@[simp] theorem State.setDt_log (b : Byte) : (s.setDt b).log = s.log := rfl
@[simp] theorem State.setDt_phase (b : Byte) : (s.setDt b).phase = s.phase := rfl
@[simp] theorem State.setDt_keyQueue (b : Byte) : (s.setDt b).keyQueue = s.keyQueue := rfl
@[simp] theorem State.setDt_executed (b : Byte) : (s.setDt b).executed = s.executed := rfl
@[simp] theorem State.setDt_shown (b : Byte) : (s.setDt b).shown = s.shown := rfl
@[simp] theorem State.setDt_presents (b : Byte) : (s.setDt b).presents = s.presents := rfl
@[simp] theorem State.setDt_gate (b : Byte) : (s.setDt b).gate = s.gate := rfl
@[simp] theorem State.setDt_draws (b : Byte) : (s.setDt b).draws = s.draws := rfl

/-! ### setSt -/

@[simp] theorem State.setSt_cfg (b : Byte) : (s.setSt b).cfg = s.cfg := rfl
@[simp] theorem State.setSt_mem (b : Byte) : (s.setSt b).mem = s.mem := rfl
@[simp] theorem State.setSt_v (b : Byte) : (s.setSt b).v = s.v := rfl
@[simp] theorem State.setSt_idx (b : Byte) : (s.setSt b).idx = s.idx := rfl
@[simp] theorem State.setSt_pc (b : Byte) : (s.setSt b).pc = s.pc := rfl
@[simp] theorem State.setSt_stack (b : Byte) : (s.setSt b).stack = s.stack := rfl
@[simp] theorem State.setSt_dt (b : Byte) : (s.setSt b).dt = s.dt := rfl
@[simp] theorem State.setSt_st (b : Byte) : (s.setSt b).st = b := rfl
@[simp] theorem State.setSt_keys (b : Byte) : (s.setSt b).keys = s.keys := rfl
@[simp] theorem State.setSt_disp (b : Byte) : (s.setSt b).disp = s.disp := rfl
@[simp] theorem State.setSt_redraw (b : Byte) : (s.setSt b).redraw = s.redraw := rfl
@[simp] theorem State.setSt_status (b : Byte) : (s.setSt b).status = s.status := rfl
@[simp] theorem State.setSt_log (b : Byte) : (s.setSt b).log = s.log := rfl
@[simp] theorem State.setSt_phase (b : Byte) : (s.setSt b).phase = s.phase := rfl
@[simp] theorem State.setSt_keyQueue (b : Byte) : (s.setSt b).keyQueue = s.keyQueue := rfl
@[simp] theorem State.setSt_executed (b : Byte) : (s.setSt b).executed = s.executed := rfl
@[simp] theorem State.setSt_shown (b : Byte) : (s.setSt b).shown = s.shown := rfl
@[simp] theorem State.setSt_presents (b : Byte) : (s.setSt b).presents = s.presents := rfl
@[simp] theorem State.setSt_gate (b : Byte) : (s.setSt b).gate = s.gate := rfl
@[simp] theorem State.setSt_draws (b : Byte) : (s.setSt b).draws = s.draws := rfl

/-! ### setKeys -/

@[simp] theorem State.setKeys_cfg (k : KeySet) : (s.setKeys k).cfg = s.cfg := rfl
@[simp] theorem State.setKeys_mem (k : KeySet) : (s.setKeys k).mem = s.mem := rfl
@[simp] theorem State.setKeys_v (k : KeySet) : (s.setKeys k).v = s.v := rfl
@[simp] theorem State.setKeys_idx (k : KeySet) : (s.setKeys k).idx = s.idx := rfl
@[simp] theorem State.setKeys_pc (k : KeySet) : (s.setKeys k).pc = s.pc := rfl
@[simp] theorem State.setKeys_stack (k : KeySet) : (s.setKeys k).stack = s.stack := rfl
@[simp] theorem State.setKeys_dt (k : KeySet) : (s.setKeys k).dt = s.dt := rfl
@[simp] theorem State.setKeys_st (k : KeySet) : (s.setKeys k).st = s.st := rfl
@[simp] theorem State.setKeys_keys (k : KeySet) : (s.setKeys k).keys = k := rfl
@[simp] theorem State.setKeys_disp (k : KeySet) : (s.setKeys k).disp = s.disp := rfl
@[simp] theorem State.setKeys_redraw (k : KeySet) : (s.setKeys k).redraw = s.redraw := rfl
@[simp] theorem State.setKeys_status (k : KeySet) : (s.setKeys k).status = s.status := rfl
@[simp] theorem State.setKeys_log (k : KeySet) : (s.setKeys k).log = s.log := rfl
@[simp] theorem State.setKeys_phase (k : KeySet) : (s.setKeys k).phase = s.phase := rfl
@[simp] theorem State.setKeys_keyQueue (k : KeySet) : (s.setKeys k).keyQueue = s.keyQueue := rfl
@[simp] theorem State.setKeys_executed (k : KeySet) : (s.setKeys k).executed = s.executed := rfl
@[simp] theorem State.setKeys_shown (k : KeySet) : (s.setKeys k).shown = s.shown := rfl
@[simp] theorem State.setKeys_presents (k : KeySet) : (s.setKeys k).presents = s.presents := rfl
@[simp] theorem State.setKeys_gate (k : KeySet) : (s.setKeys k).gate = s.gate := rfl
@[simp] theorem State.setKeys_draws (k : KeySet) : (s.setKeys k).draws = s.draws := rfl

/-! ### setDisp -/

@[simp] theorem State.setDisp_cfg (d : Display) : (s.setDisp d).cfg = s.cfg := rfl
@[simp] theorem State.setDisp_mem (d : Display) : (s.setDisp d).mem = s.mem := rfl
@[simp] theorem State.setDisp_v (d : Display) : (s.setDisp d).v = s.v := rfl
@[simp] theorem State.setDisp_idx (d : Display) : (s.setDisp d).idx = s.idx := rfl
@[simp] theorem State.setDisp_pc (d : Display) : (s.setDisp d).pc = s.pc := rfl
@[simp] theorem State.setDisp_stack (d : Display) : (s.setDisp d).stack = s.stack := rfl
@[simp] theorem State.setDisp_dt (d : Display) : (s.setDisp d).dt = s.dt := rfl
@[simp] theorem State.setDisp_st (d : Display) : (s.setDisp d).st = s.st := rfl
@[simp] theorem State.setDisp_keys (d : Display) : (s.setDisp d).keys = s.keys := rfl
@[simp] theorem State.setDisp_disp (d : Display) : (s.setDisp d).disp = d := rfl
@[simp] theorem State.setDisp_redraw (d : Display) : (s.setDisp d).redraw = s.redraw := rfl
@[simp] theorem State.setDisp_status (d : Display) : (s.setDisp d).status = s.status := rfl
@[simp] theorem State.setDisp_log (d : Display) : (s.setDisp d).log = s.log := rfl
@[simp] theorem State.setDisp_phase (d : Display) : (s.setDisp d).phase = s.phase := rfl
@[simp] theorem State.setDisp_keyQueue (d : Display) : (s.setDisp d).keyQueue = s.keyQueue := rfl
@[simp] theorem State.setDisp_executed (d : Display) : (s.setDisp d).executed = s.executed := rfl
@[simp] theorem State.setDisp_shown (d : Display) : (s.setDisp d).shown = s.shown := rfl
@[simp] theorem State.setDisp_presents (d : Display) : (s.setDisp d).presents = s.presents := rfl
@[simp] theorem State.setDisp_gate (d : Display) : (s.setDisp d).gate = s.gate := rfl
@[simp] theorem State.setDisp_draws (d : Display) : (s.setDisp d).draws = s.draws := rfl

/-! ### setRedraw -/

@[simp] theorem State.setRedraw_cfg (b : Bool) : (s.setRedraw b).cfg = s.cfg := rfl
@[simp] theorem State.setRedraw_mem (b : Bool) : (s.setRedraw b).mem = s.mem := rfl
@[simp] theorem State.setRedraw_v (b : Bool) : (s.setRedraw b).v = s.v := rfl
@[simp] theorem State.setRedraw_idx (b : Bool) : (s.setRedraw b).idx = s.idx := rfl
@[simp] theorem State.setRedraw_pc (b : Bool) : (s.setRedraw b).pc = s.pc := rfl
@[simp] theorem State.setRedraw_stack (b : Bool) : (s.setRedraw b).stack = s.stack := rfl
@[simp] theorem State.setRedraw_dt (b : Bool) : (s.setRedraw b).dt = s.dt := rfl
@[simp] theorem State.setRedraw_st (b : Bool) : (s.setRedraw b).st = s.st := rfl
@[simp] theorem State.setRedraw_keys (b : Bool) : (s.setRedraw b).keys = s.keys := rfl
@[simp] theorem State.setRedraw_disp (b : Bool) : (s.setRedraw b).disp = s.disp := rfl
@[simp] theorem State.setRedraw_redraw (b : Bool) : (s.setRedraw b).redraw = b := rfl
@[simp] theorem State.setRedraw_status (b : Bool) : (s.setRedraw b).status = s.status := rfl
@[simp] theorem State.setRedraw_log (b : Bool) : (s.setRedraw b).log = s.log := rfl
@[simp] theorem State.setRedraw_phase (b : Bool) : (s.setRedraw b).phase = s.phase := rfl
@[simp] theorem State.setRedraw_keyQueue (b : Bool) : (s.setRedraw b).keyQueue = s.keyQueue := rfl
@[simp] theorem State.setRedraw_executed (b : Bool) : (s.setRedraw b).executed = s.executed := rfl
@[simp] theorem State.setRedraw_shown (b : Bool) : (s.setRedraw b).shown = s.shown := rfl
@[simp] theorem State.setRedraw_presents (b : Bool) : (s.setRedraw b).presents = s.presents := rfl
@[simp] theorem State.setRedraw_gate (b : Bool) : (s.setRedraw b).gate = s.gate := rfl
@[simp] theorem State.setRedraw_draws (b : Bool) : (s.setRedraw b).draws = s.draws := rfl

/-! ### setStatus -/

@[simp] theorem State.setStatus_cfg (x : Status) : (s.setStatus x).cfg = s.cfg := rfl
@[simp] theorem State.setStatus_mem (x : Status) : (s.setStatus x).mem = s.mem := rfl
@[simp] theorem State.setStatus_v (x : Status) : (s.setStatus x).v = s.v := rfl
@[simp] theorem State.setStatus_idx (x : Status) : (s.setStatus x).idx = s.idx := rfl
@[simp] theorem State.setStatus_pc (x : Status) : (s.setStatus x).pc = s.pc := rfl
@[simp] theorem State.setStatus_stack (x : Status) : (s.setStatus x).stack = s.stack := rfl
@[simp] theorem State.setStatus_dt (x : Status) : (s.setStatus x).dt = s.dt := rfl
@[simp] theorem State.setStatus_st (x : Status) : (s.setStatus x).st = s.st := rfl
@[simp] theorem State.setStatus_keys (x : Status) : (s.setStatus x).keys = s.keys := rfl
@[simp] theorem State.setStatus_disp (x : Status) : (s.setStatus x).disp = s.disp := rfl
@[simp] theorem State.setStatus_redraw (x : Status) : (s.setStatus x).redraw = s.redraw := rfl
@[simp] theorem State.setStatus_status (x : Status) : (s.setStatus x).status = x := rfl
@[simp] theorem State.setStatus_log (x : Status) : (s.setStatus x).log = s.log := rfl
@[simp] theorem State.setStatus_phase (x : Status) : (s.setStatus x).phase = s.phase := rfl
@[simp] theorem State.setStatus_keyQueue (x : Status) : (s.setStatus x).keyQueue = s.keyQueue := rfl
@[simp] theorem State.setStatus_executed (x : Status) : (s.setStatus x).executed = s.executed := rfl
@[simp] theorem State.setStatus_shown (x : Status) : (s.setStatus x).shown = s.shown := rfl
@[simp] theorem State.setStatus_presents (x : Status) : (s.setStatus x).presents = s.presents := rfl
@[simp] theorem State.setStatus_gate (x : Status) : (s.setStatus x).gate = s.gate := rfl
@[simp] theorem State.setStatus_draws (x : Status) : (s.setStatus x).draws = s.draws := rfl

/-! ### report -/

@[simp] theorem State.report_cfg (r : Report) : (s.report r).cfg = s.cfg := rfl
@[simp] theorem State.report_mem (r : Report) : (s.report r).mem = s.mem := rfl
@[simp] theorem State.report_v (r : Report) : (s.report r).v = s.v := rfl
@[simp] theorem State.report_idx (r : Report) : (s.report r).idx = s.idx := rfl
@[simp] theorem State.report_pc (r : Report) : (s.report r).pc = s.pc := rfl
@[simp] theorem State.report_stack (r : Report) : (s.report r).stack = s.stack := rfl
@[simp] theorem State.report_dt (r : Report) : (s.report r).dt = s.dt := rfl
@[simp] theorem State.report_st (r : Report) : (s.report r).st = s.st := rfl
@[simp] theorem State.report_keys (r : Report) : (s.report r).keys = s.keys := rfl
@[simp] theorem State.report_disp (r : Report) : (s.report r).disp = s.disp := rfl
@[simp] theorem State.report_redraw (r : Report) : (s.report r).redraw = s.redraw := rfl
@[simp] theorem State.report_status (r : Report) : (s.report r).status = s.status := rfl
@[simp] theorem State.report_log (r : Report) : (s.report r).log = s.log ++ [r] := rfl
@[simp] theorem State.report_phase (r : Report) : (s.report r).phase = s.phase := rfl
@[simp] theorem State.report_keyQueue (r : Report) : (s.report r).keyQueue = s.keyQueue := rfl
@[simp] theorem State.report_executed (r : Report) : (s.report r).executed = s.executed := rfl
@[simp] theorem State.report_shown (r : Report) : (s.report r).shown = s.shown := rfl
@[simp] theorem State.report_presents (r : Report) : (s.report r).presents = s.presents := rfl
@[simp] theorem State.report_gate (r : Report) : (s.report r).gate = s.gate := rfl
@[simp] theorem State.report_draws (r : Report) : (s.report r).draws = s.draws := rfl

/-! ### setPhase -/

@[simp] theorem State.setPhase_cfg (p : Phase) : (s.setPhase p).cfg = s.cfg := rfl
@[simp] theorem State.setPhase_mem (p : Phase) : (s.setPhase p).mem = s.mem := rfl
@[simp] theorem State.setPhase_v (p : Phase) : (s.setPhase p).v = s.v := rfl
@[simp] theorem State.setPhase_idx (p : Phase) : (s.setPhase p).idx = s.idx := rfl
@[simp] theorem State.setPhase_pc (p : Phase) : (s.setPhase p).pc = s.pc := rfl
@[simp] theorem State.setPhase_stack (p : Phase) : (s.setPhase p).stack = s.stack := rfl
@[simp] theorem State.setPhase_dt (p : Phase) : (s.setPhase p).dt = s.dt := rfl
@[simp] theorem State.setPhase_st (p : Phase) : (s.setPhase p).st = s.st := rfl
@[simp] theorem State.setPhase_keys (p : Phase) : (s.setPhase p).keys = s.keys := rfl
@[simp] theorem State.setPhase_disp (p : Phase) : (s.setPhase p).disp = s.disp := rfl
@[simp] theorem State.setPhase_redraw (p : Phase) : (s.setPhase p).redraw = s.redraw := rfl
@[simp] theorem State.setPhase_status (p : Phase) : (s.setPhase p).status = s.status := rfl
@[simp] theorem State.setPhase_log (p : Phase) : (s.setPhase p).log = s.log := rfl
@[simp] theorem State.setPhase_phase (p : Phase) : (s.setPhase p).phase = p := rfl
@[simp] theorem State.setPhase_keyQueue (p : Phase) : (s.setPhase p).keyQueue = s.keyQueue := rfl
@[simp] theorem State.setPhase_executed (p : Phase) : (s.setPhase p).executed = s.executed := rfl
@[simp] theorem State.setPhase_shown (p : Phase) : (s.setPhase p).shown = s.shown := rfl
@[simp] theorem State.setPhase_presents (p : Phase) : (s.setPhase p).presents = s.presents := rfl
@[simp] theorem State.setPhase_gate (p : Phase) : (s.setPhase p).gate = s.gate := rfl
@[simp] theorem State.setPhase_draws (p : Phase) : (s.setPhase p).draws = s.draws := rfl

/-! ### setKeyQueue -/

@[simp] theorem State.setKeyQueue_cfg (q : List KeyEvent) : (s.setKeyQueue q).cfg = s.cfg := rfl
@[simp] theorem State.setKeyQueue_mem (q : List KeyEvent) : (s.setKeyQueue q).mem = s.mem := rfl
@[simp] theorem State.setKeyQueue_v (q : List KeyEvent) : (s.setKeyQueue q).v = s.v := rfl
@[simp] theorem State.setKeyQueue_idx (q : List KeyEvent) : (s.setKeyQueue q).idx = s.idx := rfl
@[simp] theorem State.setKeyQueue_pc (q : List KeyEvent) : (s.setKeyQueue q).pc = s.pc := rfl
@[simp] theorem State.setKeyQueue_stack (q : List KeyEvent) : (s.setKeyQueue q).stack = s.stack := rfl
@[simp] theorem State.setKeyQueue_dt (q : List KeyEvent) : (s.setKeyQueue q).dt = s.dt := rfl
@[simp] theorem State.setKeyQueue_st (q : List KeyEvent) : (s.setKeyQueue q).st = s.st := rfl
@[simp] theorem State.setKeyQueue_keys (q : List KeyEvent) : (s.setKeyQueue q).keys = s.keys := rfl
@[simp] theorem State.setKeyQueue_disp (q : List KeyEvent) : (s.setKeyQueue q).disp = s.disp := rfl
@[simp] theorem State.setKeyQueue_redraw (q : List KeyEvent) : (s.setKeyQueue q).redraw = s.redraw := rfl
@[simp] theorem State.setKeyQueue_status (q : List KeyEvent) : (s.setKeyQueue q).status = s.status := rfl
@[simp] theorem State.setKeyQueue_log (q : List KeyEvent) : (s.setKeyQueue q).log = s.log := rfl
@[simp] theorem State.setKeyQueue_phase (q : List KeyEvent) : (s.setKeyQueue q).phase = s.phase := rfl
@[simp] theorem State.setKeyQueue_keyQueue (q : List KeyEvent) : (s.setKeyQueue q).keyQueue = q := rfl
@[simp] theorem State.setKeyQueue_executed (q : List KeyEvent) : (s.setKeyQueue q).executed = s.executed := rfl
@[simp] theorem State.setKeyQueue_shown (q : List KeyEvent) : (s.setKeyQueue q).shown = s.shown := rfl
@[simp] theorem State.setKeyQueue_presents (q : List KeyEvent) : (s.setKeyQueue q).presents = s.presents := rfl
@[simp] theorem State.setKeyQueue_gate (q : List KeyEvent) : (s.setKeyQueue q).gate = s.gate := rfl
@[simp] theorem State.setKeyQueue_draws (q : List KeyEvent) : (s.setKeyQueue q).draws = s.draws := rfl

/-! ### countStep -/

@[simp] theorem State.countStep_cfg : (s.countStep).cfg = s.cfg := rfl
@[simp] theorem State.countStep_mem : (s.countStep).mem = s.mem := rfl
@[simp] theorem State.countStep_v : (s.countStep).v = s.v := rfl
@[simp] theorem State.countStep_idx : (s.countStep).idx = s.idx := rfl
@[simp] theorem State.countStep_pc : (s.countStep).pc = s.pc := rfl
@[simp] theorem State.countStep_stack : (s.countStep).stack = s.stack := rfl
@[simp] theorem State.countStep_dt : (s.countStep).dt = s.dt := rfl
@[simp] theorem State.countStep_st : (s.countStep).st = s.st := rfl
@[simp] theorem State.countStep_keys : (s.countStep).keys = s.keys := rfl
@[simp] theorem State.countStep_disp : (s.countStep).disp = s.disp := rfl
@[simp] theorem State.countStep_redraw : (s.countStep).redraw = s.redraw := rfl
@[simp] theorem State.countStep_status : (s.countStep).status = s.status := rfl
@[simp] theorem State.countStep_log : (s.countStep).log = s.log := rfl
@[simp] theorem State.countStep_phase : (s.countStep).phase = s.phase := rfl
@[simp] theorem State.countStep_keyQueue : (s.countStep).keyQueue = s.keyQueue := rfl
@[simp] theorem State.countStep_executed : (s.countStep).executed = s.executed + 1 := rfl
@[simp] theorem State.countStep_shown : (s.countStep).shown = s.shown := rfl
@[simp] theorem State.countStep_presents : (s.countStep).presents = s.presents := rfl
@[simp] theorem State.countStep_gate : (s.countStep).gate = s.gate := rfl
@[simp] theorem State.countStep_draws : (s.countStep).draws = s.draws := rfl

/-! ### showFrame -/

@[simp] theorem State.showFrame_cfg : (s.showFrame).cfg = s.cfg := rfl
@[simp] theorem State.showFrame_mem : (s.showFrame).mem = s.mem := rfl
@[simp] theorem State.showFrame_v : (s.showFrame).v = s.v := rfl
@[simp] theorem State.showFrame_idx : (s.showFrame).idx = s.idx := rfl
@[simp] theorem State.showFrame_pc : (s.showFrame).pc = s.pc := rfl
@[simp] theorem State.showFrame_stack : (s.showFrame).stack = s.stack := rfl
@[simp] theorem State.showFrame_dt : (s.showFrame).dt = s.dt := rfl
@[simp] theorem State.showFrame_st : (s.showFrame).st = s.st := rfl
@[simp] theorem State.showFrame_keys : (s.showFrame).keys = s.keys := rfl
@[simp] theorem State.showFrame_disp : (s.showFrame).disp = s.disp := rfl
@[simp] theorem State.showFrame_redraw : (s.showFrame).redraw = s.redraw := rfl
@[simp] theorem State.showFrame_status : (s.showFrame).status = s.status := rfl
@[simp] theorem State.showFrame_log : (s.showFrame).log = s.log := rfl
@[simp] theorem State.showFrame_phase : (s.showFrame).phase = s.phase := rfl
@[simp] theorem State.showFrame_keyQueue : (s.showFrame).keyQueue = s.keyQueue := rfl
@[simp] theorem State.showFrame_executed : (s.showFrame).executed = s.executed := rfl
@[simp] theorem State.showFrame_shown : (s.showFrame).shown = some s.disp := rfl
@[simp] theorem State.showFrame_presents : (s.showFrame).presents = s.presents + 1 := rfl
@[simp] theorem State.showFrame_gate : (s.showFrame).gate = s.gate := rfl
@[simp] theorem State.showFrame_draws : (s.showFrame).draws = s.draws := rfl

/-! ### setGate -/

@[simp] theorem State.setGate_cfg (b : Bool) : (s.setGate b).cfg = s.cfg := rfl
@[simp] theorem State.setGate_mem (b : Bool) : (s.setGate b).mem = s.mem := rfl
@[simp] theorem State.setGate_v (b : Bool) : (s.setGate b).v = s.v := rfl
@[simp] theorem State.setGate_idx (b : Bool) : (s.setGate b).idx = s.idx := rfl
@[simp] theorem State.setGate_pc (b : Bool) : (s.setGate b).pc = s.pc := rfl
@[simp] theorem State.setGate_stack (b : Bool) : (s.setGate b).stack = s.stack := rfl
@[simp] theorem State.setGate_dt (b : Bool) : (s.setGate b).dt = s.dt := rfl
@[simp] theorem State.setGate_st (b : Bool) : (s.setGate b).st = s.st := rfl
@[simp] theorem State.setGate_keys (b : Bool) : (s.setGate b).keys = s.keys := rfl
@[simp] theorem State.setGate_disp (b : Bool) : (s.setGate b).disp = s.disp := rfl
@[simp] theorem State.setGate_redraw (b : Bool) : (s.setGate b).redraw = s.redraw := rfl
@[simp] theorem State.setGate_status (b : Bool) : (s.setGate b).status = s.status := rfl
@[simp] theorem State.setGate_log (b : Bool) : (s.setGate b).log = s.log := rfl
@[simp] theorem State.setGate_phase (b : Bool) : (s.setGate b).phase = s.phase := rfl
@[simp] theorem State.setGate_keyQueue (b : Bool) : (s.setGate b).keyQueue = s.keyQueue := rfl
@[simp] theorem State.setGate_executed (b : Bool) : (s.setGate b).executed = s.executed := rfl
@[simp] theorem State.setGate_shown (b : Bool) : (s.setGate b).shown = s.shown := rfl
@[simp] theorem State.setGate_presents (b : Bool) : (s.setGate b).presents = s.presents := rfl
@[simp] theorem State.setGate_gate (b : Bool) : (s.setGate b).gate = b := rfl
@[simp] theorem State.setGate_draws (b : Bool) : (s.setGate b).draws = s.draws := rfl

/-! ### countDraw -/

@[simp] theorem State.countDraw_cfg : (s.countDraw).cfg = s.cfg := rfl
@[simp] theorem State.countDraw_mem : (s.countDraw).mem = s.mem := rfl
@[simp] theorem State.countDraw_v : (s.countDraw).v = s.v := rfl
@[simp] theorem State.countDraw_idx : (s.countDraw).idx = s.idx := rfl
@[simp] theorem State.countDraw_pc : (s.countDraw).pc = s.pc := rfl
@[simp] theorem State.countDraw_stack : (s.countDraw).stack = s.stack := rfl
@[simp] theorem State.countDraw_dt : (s.countDraw).dt = s.dt := rfl
@[simp] theorem State.countDraw_st : (s.countDraw).st = s.st := rfl
@[simp] theorem State.countDraw_keys : (s.countDraw).keys = s.keys := rfl
@[simp] theorem State.countDraw_disp : (s.countDraw).disp = s.disp := rfl
@[simp] theorem State.countDraw_redraw : (s.countDraw).redraw = s.redraw := rfl
@[simp] theorem State.countDraw_status : (s.countDraw).status = s.status := rfl
@[simp] theorem State.countDraw_log : (s.countDraw).log = s.log := rfl
@[simp] theorem State.countDraw_phase : (s.countDraw).phase = s.phase := rfl
@[simp] theorem State.countDraw_keyQueue : (s.countDraw).keyQueue = s.keyQueue := rfl
@[simp] theorem State.countDraw_executed : (s.countDraw).executed = s.executed := rfl
@[simp] theorem State.countDraw_shown : (s.countDraw).shown = s.shown := rfl
@[simp] theorem State.countDraw_presents : (s.countDraw).presents = s.presents := rfl
@[simp] theorem State.countDraw_gate : (s.countDraw).gate = s.gate := rfl
@[simp] theorem State.countDraw_draws : (s.countDraw).draws = s.draws + 1 := rfl

/-! ### deviceCalled -/

@[simp] theorem State.deviceCalled_cfg (d : Device) : (s.deviceCalled d).cfg = s.cfg := rfl
@[simp] theorem State.deviceCalled_mem (d : Device) : (s.deviceCalled d).mem = s.mem := rfl
@[simp] theorem State.deviceCalled_v (d : Device) : (s.deviceCalled d).v = s.v := rfl
@[simp] theorem State.deviceCalled_idx (d : Device) : (s.deviceCalled d).idx = s.idx := rfl
@[simp] theorem State.deviceCalled_pc (d : Device) : (s.deviceCalled d).pc = s.pc := rfl
@[simp] theorem State.deviceCalled_stack (d : Device) : (s.deviceCalled d).stack = s.stack := rfl
@[simp] theorem State.deviceCalled_dt (d : Device) : (s.deviceCalled d).dt = s.dt := rfl
@[simp] theorem State.deviceCalled_st (d : Device) : (s.deviceCalled d).st = s.st := rfl
@[simp] theorem State.deviceCalled_keys (d : Device) : (s.deviceCalled d).keys = s.keys := rfl
@[simp] theorem State.deviceCalled_disp (d : Device) : (s.deviceCalled d).disp = s.disp := rfl
@[simp] theorem State.deviceCalled_redraw (d : Device) : (s.deviceCalled d).redraw = s.redraw := rfl
@[simp] theorem State.deviceCalled_status (d : Device) : (s.deviceCalled d).status = s.status := rfl
@[simp] theorem State.deviceCalled_phase (d : Device) : (s.deviceCalled d).phase = s.phase := rfl
@[simp] theorem State.deviceCalled_keyQueue (d : Device) : (s.deviceCalled d).keyQueue = s.keyQueue := rfl
@[simp] theorem State.deviceCalled_executed (d : Device) : (s.deviceCalled d).executed = s.executed := rfl
@[simp] theorem State.deviceCalled_shown (d : Device) : (s.deviceCalled d).shown = s.shown := rfl
@[simp] theorem State.deviceCalled_presents (d : Device) : (s.deviceCalled d).presents = s.presents := rfl
@[simp] theorem State.deviceCalled_gate (d : Device) : (s.deviceCalled d).gate = s.gate := rfl
@[simp] theorem State.deviceCalled_draws (d : Device) : (s.deviceCalled d).draws = s.draws + 1 := rfl
@[simp] theorem State.deviceCalled_log (d : Device) :
    (s.deviceCalled d).log = s.log ++ if Config.freeDeviceFails s.draws then [.deviceFailure d] else [] := rfl

/-! ### afterFault -/

@[simp] theorem State.afterFault_cfg (f : Fault) (m : Memory) (v : Vector Byte 16) (d : Display) :
    (s.afterFault f m v d).cfg = s.cfg := rfl
@[simp] theorem State.afterFault_idx (f : Fault) (m : Memory) (v : Vector Byte 16) (d : Display) :
    (s.afterFault f m v d).idx = s.idx := rfl
@[simp] theorem State.afterFault_stack (f : Fault) (m : Memory) (v : Vector Byte 16) (d : Display) :
    (s.afterFault f m v d).stack = s.stack := rfl
@[simp] theorem State.afterFault_dt (f : Fault) (m : Memory) (v : Vector Byte 16) (d : Display) :
    (s.afterFault f m v d).dt = s.dt := rfl
@[simp] theorem State.afterFault_st (f : Fault) (m : Memory) (v : Vector Byte 16) (d : Display) :
    (s.afterFault f m v d).st = s.st := rfl
@[simp] theorem State.afterFault_keys (f : Fault) (m : Memory) (v : Vector Byte 16) (d : Display) :
    (s.afterFault f m v d).keys = s.keys := rfl
@[simp] theorem State.afterFault_redraw (f : Fault) (m : Memory) (v : Vector Byte 16) (d : Display) :
    (s.afterFault f m v d).redraw = s.redraw := rfl
@[simp] theorem State.afterFault_log (f : Fault) (m : Memory) (v : Vector Byte 16) (d : Display) :
    (s.afterFault f m v d).log = s.log := rfl
@[simp] theorem State.afterFault_phase (f : Fault) (m : Memory) (v : Vector Byte 16) (d : Display) :
    (s.afterFault f m v d).phase = s.phase := rfl
@[simp] theorem State.afterFault_keyQueue (f : Fault) (m : Memory) (v : Vector Byte 16) (d : Display) :
    (s.afterFault f m v d).keyQueue = s.keyQueue := rfl
@[simp] theorem State.afterFault_executed (f : Fault) (m : Memory) (v : Vector Byte 16) (d : Display) :
    (s.afterFault f m v d).executed = s.executed := rfl
@[simp] theorem State.afterFault_shown (f : Fault) (m : Memory) (v : Vector Byte 16) (d : Display) :
    (s.afterFault f m v d).shown = s.shown := rfl
@[simp] theorem State.afterFault_presents (f : Fault) (m : Memory) (v : Vector Byte 16) (d : Display) :
    (s.afterFault f m v d).presents = s.presents := rfl
@[simp] theorem State.afterFault_gate (f : Fault) (m : Memory) (v : Vector Byte 16) (d : Display) :
    (s.afterFault f m v d).gate = s.gate := rfl
@[simp] theorem State.afterFault_draws (f : Fault) (m : Memory) (v : Vector Byte 16) (d : Display) :
    (s.afterFault f m v d).draws = s.draws := rfl
@[simp] theorem State.afterFault_status (f : Fault) (m : Memory) (v : Vector Byte 16) (d : Display) :
    (s.afterFault f m v d).status = .faulted f := rfl
@[simp] theorem State.afterFault_pc (f : Fault) (m : Memory) (v : Vector Byte 16) (d : Display) :
    (s.afterFault f m v d).pc = f.pcAfter := rfl
@[simp] theorem State.afterFault_mem (f : Fault) (m : Memory) (v : Vector Byte 16) (d : Display) :
    (s.afterFault f m v d).mem = m := rfl
@[simp] theorem State.afterFault_v (f : Fault) (m : Memory) (v : Vector Byte 16) (d : Display) :
    (s.afterFault f m v d).v = v := rfl
@[simp] theorem State.afterFault_disp (f : Fault) (m : Memory) (v : Vector Byte 16) (d : Display) :
    (s.afterFault f m v d).disp = d := rfl

end Sys2Proof.Machine
end

