-- ==== Sys2Proof/Laws/Memory.lean ====
section
/-! SUPPORT. Memory: reading after writing, and every operation keeps the canonical form. -/

namespace Sys2Proof.Machine

theorem Memory.lookup_insert (m : Memory) (a a' : Nat) (b : Byte) :
    Memory.lookup (Memory.insert m a b) a' = if a' = a then some b else Memory.lookup m a' := by
  induction m with
  | nil => simp [Memory.insert, Memory.lookup, eq_comm]
  | cons p m ih =>
    obtain ⟨k, b'⟩ := p
    simp only [Memory.insert]
    split
    · simp [Memory.lookup, eq_comm]
    · split
      · subst k
        by_cases h : a = a' <;> simp [Memory.lookup, h, eq_comm]
      · by_cases hk : k = a'
        · subst k
          have : a' ≠ a := by omega
          simp [Memory.lookup, this]
        · simp [Memory.lookup, hk, ih]

theorem Memory.lookup_erase (m : Memory) (a a' : Nat) :
    Memory.lookup (Memory.erase m a) a' = if a' = a then none else Memory.lookup m a' := by
  induction m with
  | nil => simp [Memory.erase, Memory.lookup]
  | cons p m ih =>
    obtain ⟨k, b'⟩ := p
    have ih' : Memory.lookup (List.filter (fun p => p.1 != a) m) a' =
        if a' = a then none else Memory.lookup m a' := ih
    by_cases hk : k = a
    · subst k
      by_cases h : a' = a
      · simp [Memory.erase, h]; simpa [h] using ih'
      · have : a ≠ a' := Ne.symm h
        simp [Memory.erase, Memory.lookup, h, ih', this]
    · by_cases h : k = a'
      · subst k
        simp [Memory.erase, Memory.lookup, hk]
      · simp [Memory.erase, Memory.lookup, hk, h, ih']

/-- A read gives what the last write to its address stored, and no write reaches another address. -/
theorem Memory.read_write (c : Config) (m : Memory) (a a' : Nat) (b : Byte) :
    (m.write c a b).read c a' = if a' = a then b else m.read c a' := by
  by_cases hb : b = resetByte c a
  · by_cases h : a' = a <;> simp [Memory.read, Memory.write, hb, Memory.lookup_erase, h]
  · by_cases h : a' = a <;> simp [Memory.read, Memory.write, hb, Memory.lookup_insert, h]

theorem Memory.mem_insert {m : Memory} {a : Nat} {b : Byte} {p : Host.Cell} (h : p ∈ Memory.insert m a b) :
    p = (a, b) ∨ p ∈ m := by
  induction m with
  | nil => simpa [Memory.insert] using h
  | cons q m ih =>
    obtain ⟨k, b'⟩ := q
    simp only [Memory.insert] at h
    split at h
    · simpa using h
    · split at h
      · rcases List.mem_cons.1 h with h | h
        · exact .inl h
        · exact .inr (List.mem_cons_of_mem _ h)
      · rcases List.mem_cons.1 h with h | h
        · exact .inr (by simp [h])
        · exact (ih h).imp id (List.mem_cons_of_mem _)

theorem Memory.insert_sorted {m : Memory} (a : Nat) (b : Byte) (h : m.Pairwise (fun p q => p.1 < q.1)) :
    (Memory.insert m a b).Pairwise (fun p q => p.1 < q.1) := by
  induction m with
  | nil => simp [Memory.insert]
  | cons q m ih =>
    obtain ⟨k, b'⟩ := q
    obtain ⟨h1, h2⟩ := List.pairwise_cons.1 h
    simp only [Memory.insert]
    split
    next hlt =>
      refine List.pairwise_cons.2 ⟨fun p hp => ?_, h⟩
      rcases List.mem_cons.1 hp with rfl | hp
      · exact hlt
      · have : k < p.1 := h1 p hp
        simp only; omega
    next hlt =>
      split
      next heq =>
        subst heq
        exact List.pairwise_cons.2 ⟨h1, h2⟩
      next hne =>
        refine List.pairwise_cons.2 ⟨fun p hp => ?_, ih h2⟩
        rcases Memory.mem_insert hp with rfl | hp
        · simp only; omega
        · exact h1 p hp

/-- A write inside memory keeps the canonical form. -/
theorem Memory.write_wf {c : Config} {m : Memory} {a : Nat} (ha : a < 4096) (b : Byte) (h : m.wf c) :
    (m.write c a b).wf c := by
  obtain ⟨hs, hm⟩ := h
  unfold Memory.write
  split
  · exact ⟨hs.filter _, fun p hp => hm p (List.mem_filter.1 hp).1⟩
  next hb =>
    refine ⟨Memory.insert_sorted a b hs, fun p hp => ?_⟩
    rcases Memory.mem_insert hp with rfl | hp
    · exact ⟨ha, hb⟩
    · exact hm p hp

/-- A newly constructed memory is in canonical form. -/
theorem State.construct_mem_wf (c : Config) (l : Launch) : (State.construct c l).mem.wf c := by
  simp [State.construct, Memory.wf]

/-- Reset's memory is in canonical form. -/
theorem State.reset_mem_wf : State.reset.mem.wf State.reset.cfg := State.construct_mem_wf _ _

/-- The loader's byte write keeps the canonical form. -/
theorem State.placeByte_wf {s : State} (a : Nat) (b : Byte) (h : s.mem.wf s.cfg) :
    (s.placeByte a b).mem.wf (s.placeByte a b).cfg := by
  unfold State.placeByte
  split
  next ha => exact Memory.write_wf ha b h
  · exact h

/-- The loader keeps the canonical form. -/
theorem State.placeBytes_wf {s : State} (a : Nat) (bs : List Byte) (h : s.mem.wf s.cfg) :
    (s.placeBytes a bs).mem.wf (s.placeBytes a bs).cfg := by
  induction bs generalizing s a with
  | nil => exact h
  | cons b bs ih => exact ih (a + 1) (State.placeByte_wf a b h)

theorem State.byteAt_setMem_write (s : State) (a a' : Nat) (b : Byte) :
    (s.setMem (s.mem.write s.cfg a b)).byteAt a' = if a' = a then b else s.byteAt a' :=
  Memory.read_write s.cfg s.mem a a' b

end Sys2Proof.Machine
end

