-- ==== Sys2Proof/Laws/Registers.lean ====
section
/-! SUPPORT. Reading a general register after a write, and the pixels of a display after a write. -/

namespace Sys2Proof.Machine

theorem State.reg_setReg (s : State) (x y : Nibble) (b : Byte) :
    (s.setReg x b).reg y = if y = x then b else s.reg y := by
  by_cases h : y = x
  · simp [h, State.reg]
  · have : x.toNat ≠ y.toNat := fun e => h (BitVec.eq_of_toNat_eq e.symm)
    simp [h, State.reg, this]

@[simp] theorem State.reg_setReg_self (s : State) (x : Nibble) (b : Byte) : (s.setReg x b).reg x = b := by
  simp [State.reg_setReg]

theorem State.reg_setReg_ne (s : State) {x y : Nibble} (h : y ≠ x) (b : Byte) :
    (s.setReg x b).reg y = s.reg y := by
  simp [State.reg_setReg, h]

/-- VF after a result and a flag are written is the flag, also when the result went to VF (R140). -/
@[simp] theorem State.reg_setRegFlag_flag (s : State) (x : Nibble) (b : Byte) (f : Bool) :
    (s.setRegFlag x b f).reg flagReg = flagByte f := by
  simp [State.setRegFlag]

theorem State.reg_setRegFlag (s : State) (x y : Nibble) (b : Byte) (f : Bool) (h : y ≠ flagReg) :
    (s.setRegFlag x b f).reg y = if y = x then b else s.reg y := by
  simp [State.setRegFlag, State.reg_setReg, h]

/-- Writing a result and a flag changes the general registers only. -/
theorem State.setRegFlag_eq (s : State) (x : Nibble) (b : Byte) (f : Bool) :
    s.setRegFlag x b f = { s with v := (s.setRegFlag x b f).v } := rfl

theorem Display.pixel_setPixel (d : Display) (c c' : Fin 64) (r r' : Fin 32) (b : Bool) :
    (d.setPixel c r b).pixel c' r' = if c' = c ∧ r' = r then b else d.pixel c' r' := by
  simp only [Display.pixel, Display.setPixel, Vector.getElem_set, Fin.ext_iff]
  by_cases hr : r.val = r'.val
  · by_cases hc : c.val = c'.val
    · simp [hr, hc]
    · have := Ne.symm hc
      simp [hr, hc, this]
  · have := Ne.symm hr
    simp [hr, this]

@[simp] theorem Display.pixel_blank (c : Fin 64) (r : Fin 32) : Display.blank.pixel c r = false := by
  simp [Display.pixel, Display.blank]

/-- Two displays with the same pixels are equal. -/
theorem Display.ext_pixel {d e : Display} (h : ∀ c r, d.pixel c r = e.pixel c r) : d = e := by
  apply Vector.ext
  intro r hr
  apply Vector.ext
  intro c hc
  exact h ⟨c, hc⟩ ⟨r, hr⟩

end Sys2Proof.Machine
end

