-- ==== Sys2Proof/Laws/Ops.lean ====
section
/-! SUPPORT. What each shared operation can do: one lemma says what it answers when it answers a state or a value, one
when it does. -/

namespace Sys2Proof.Machine

theorem finish_next {e : Except Fault State} {t : State} : finish e = .next t ↔ e = .ok t := by
  cases e <;> simp [finish, raise]

theorem finish_not_refused {e : Except Fault State} {r : Refusal} : finish e ≠ .refused r := by
  cases e <;> simp [finish, raise]

/-- A is the word before pc, so pc is A + 2. -/
@[simp] theorem State.instrAddr_add_two (s : State) : s.instrAddr + 2#16 = s.pc := BitVec.sub_add_cancel _ _

/-! ### One byte -/

theorem State.memRead_ok {s : State} {a : Nat} {b : Byte} :
    s.memRead a = .ok b ↔ a < 4096 ∧ b = s.byteAt a := by
  unfold State.memRead
  split
  next h => simp [h, eq_comm]
  next h => simp [h]

theorem State.memRead_error {s : State} {a : Nat} {f : Fault} :
    s.memRead a = .error f ↔ 4096 ≤ a ∧ f = .memBounds a s.instrAddr := by
  unfold State.memRead
  split
  next h => simp; omega
  next h => simp [eq_comm]; omega

theorem State.memWrite_ok {s t : State} {a : Nat} {b : Byte} :
    s.memWrite a b = .ok t ↔
      a < 4096 ∧ fontProtected s.cfg a = false ∧ t = s.setMem (s.mem.write s.cfg a b) := by
  unfold State.memWrite
  split
  next h =>
    split
    next hf => simp [hf]
    next hf => simp [hf, h, eq_comm]
  next h => simp [h]

theorem State.memWrite_error {s : State} {a : Nat} {b : Byte} {f : Fault} :
    s.memWrite a b = .error f ↔
      (4096 ≤ a ∧ f = .memBounds a s.instrAddr) ∨
      (a < 4096 ∧ fontProtected s.cfg a = true ∧ f = .fontWrite a s.instrAddr) := by
  unfold State.memWrite
  split
  next h =>
    have h' : ¬ 4096 ≤ a := by omega
    split
    next hf => simp only [Except.error.injEq, h, h', hf, false_and, true_and, false_or, eq_comm]
    next hf => simp [hf, h']
  next h =>
    have h' : 4096 ≤ a := by omega
    simp only [Except.error.injEq, h, h', false_and, true_and, or_false, eq_comm]

/-! ### Several bytes -/

/-- A completed store changes memory only: the bytes at a, a + 1, ... are the stored ones, every other byte is as it
was, and the canonical form is kept. -/
theorem State.storeBytes_ok {s t : State} {a : Nat} {bs : List Byte} (h : s.storeBytes a bs = .ok t) :
    t = s.setMem t.mem ∧
    (∀ a', t.byteAt a' = if a ≤ a' ∧ a' < a + bs.length then bs.getD (a' - a) 0 else s.byteAt a') ∧
    (s.mem.wf s.cfg → t.mem.wf t.cfg) := by
  induction bs generalizing s a with
  | nil =>
    obtain rfl : s = t := by simpa [State.storeBytes] using h
    exact ⟨rfl, fun a' => by rw [if_neg (by simp)], id⟩
  | cons b bs ih =>
    simp only [State.storeBytes] at h
    split at h
    next s' hw =>
      obtain ⟨ha, -, rfl⟩ := State.memWrite_ok.1 hw
      obtain ⟨h1, h2, h3⟩ := ih h
      refine ⟨by rw [h1]; rfl, fun a' => ?_, fun hwf => h3 (Memory.write_wf ha b hwf)⟩
      rw [h2 a', State.byteAt_setMem_write]
      by_cases e : a' = a
      · subst e
        simp
      · by_cases hin : a + 1 ≤ a' ∧ a' < a + 1 + bs.length
        · have h5 : a ≤ a' ∧ a' < a + (b :: bs).length := by simp only [List.length_cons]; omega
          obtain ⟨k, rfl⟩ : ∃ k, a' = a + 1 + k := ⟨a' - (a + 1), by omega⟩
          have e1 : a + 1 + k - a = k + 1 := by omega
          rw [if_pos hin, if_pos h5, e1, show a + 1 + k - (a + 1) = k by omega]
          rfl
        · have h5 : ¬ (a ≤ a' ∧ a' < a + (b :: bs).length) := by simp only [List.length_cons]; omega
          rw [if_neg hin, if_neg e, if_neg h5]
    next f hw => cases h

/-- A store completes when every address is inside memory and not protected. -/
theorem State.storeBytes_completes {s : State} {a : Nat} {bs : List Byte}
    (h : ∀ k < bs.length, a + k < 4096 ∧ fontProtected s.cfg (a + k) = false) :
    ∃ t, s.storeBytes a bs = .ok t := by
  induction bs generalizing s a with
  | nil => exact ⟨s, rfl⟩
  | cons b bs ih =>
    obtain ⟨h1, h2⟩ := h 0 (by simp)
    have hw : s.memWrite a b = .ok (s.setMem (s.mem.write s.cfg a b)) :=
      State.memWrite_ok.2 ⟨h1, h2, rfl⟩
    simp only [State.storeBytes, hw]
    apply ih
    intro k hk
    obtain ⟨h3, h4⟩ := h (k + 1) (by simpa using hk)
    have e : a + 1 + k = a + (k + 1) := by omega
    exact ⟨by omega, by simpa [e] using h4⟩

/-- A store that completes had every address inside memory and not protected. -/
theorem State.storeBytes_ok_writable {s t : State} {a : Nat} {bs : List Byte} (h : s.storeBytes a bs = .ok t) :
    ∀ k < bs.length, a + k < 4096 ∧ fontProtected s.cfg (a + k) = false := by
  induction bs generalizing s a with
  | nil => simp
  | cons b bs ih =>
    simp only [State.storeBytes] at h
    split at h
    next s' hw =>
      obtain ⟨h1, h2, rfl⟩ := State.memWrite_ok.1 hw
      intro k hk
      cases k with
      | zero => exact ⟨h1, h2⟩
      | succ k =>
        have e : a + 1 + k = a + (k + 1) := by omega
        have h3 := ih h k (by simpa using hk)
        rw [e] at h3
        exact h3
    next f hw => cases h

/-- A store that stops does so for the first address that is outside memory or protected. -/
theorem State.storeBytes_error {s : State} {a : Nat} {bs : List Byte} {f : Fault}
    (h : s.storeBytes a bs = .error f) :
    ∃ k < bs.length,
      (∀ j < k, a + j < 4096 ∧ fontProtected s.cfg (a + j) = false) ∧
      ((4096 ≤ a + k ∧ f = .memBounds (a + k) s.instrAddr) ∨
       (a + k < 4096 ∧ fontProtected s.cfg (a + k) = true ∧ f = .fontWrite (a + k) s.instrAddr)) := by
  induction bs generalizing s a with
  | nil => simp [State.storeBytes] at h
  | cons b bs ih =>
    simp only [State.storeBytes] at h
    split at h
    next s' hw =>
      obtain ⟨h1, h2, rfl⟩ := State.memWrite_ok.1 hw
      obtain ⟨k, hk, hb, hf⟩ := ih h
      have e : a + 1 + k = a + (k + 1) := by omega
      refine ⟨k + 1, by simpa using hk, fun j hj => ?_, by rw [e] at hf; exact hf⟩
      cases j with
      | zero => exact ⟨h1, h2⟩
      | succ j =>
        have e' : a + 1 + j = a + (j + 1) := by omega
        have := hb j (by omega)
        rw [e'] at this
        exact this
    next f' hw =>
      cases h
      exact ⟨0, by simp, by simp, by simpa using State.memWrite_error.1 hw⟩

/-- A completed load changes the general registers only: registers i, i + 1, ... hold the bytes read, every other
register is as it was. -/
theorem State.loadRegs_ok {s t : State} {i a n : Nat} (hn : i + n ≤ 16) (h : s.loadRegs i a n = .ok t) :
    t = { s with v := t.v } ∧
    ∀ y : Nibble, t.reg y = if i ≤ y.toNat ∧ y.toNat < i + n then s.byteAt (a + (y.toNat - i)) else s.reg y := by
  induction n generalizing s i a with
  | zero =>
    obtain rfl : s = t := by simpa [State.loadRegs] using h
    exact ⟨rfl, fun y => by rw [if_neg (by omega)]⟩
  | succ n ih =>
    simp only [State.loadRegs] at h
    split at h
    next b hb =>
      obtain ⟨ha, rfl⟩ := State.memRead_ok.1 hb
      obtain ⟨h1, h2⟩ := ih (by omega) h
      refine ⟨by rw [h1]; rfl, fun y => ?_⟩
      rw [h2 y, State.reg_setReg]
      have hy := y.isLt
      have key : y = BitVec.ofNat 4 i ↔ y.toNat = i := by
        constructor
        · rintro rfl; simp; omega
        · rintro rfl; simp
      by_cases e : y.toNat = i
      · rw [if_neg (by omega), if_pos (key.2 e), if_pos (by omega)]
        simp [e]
      · by_cases hin : i + 1 ≤ y.toNat ∧ y.toNat < i + 1 + n
        · rw [if_pos hin, if_pos (by omega)]
          have e1 : a + 1 + (y.toNat - (i + 1)) = a + (y.toNat - i) := by omega
          rw [e1]
          rfl
        · rw [if_neg hin, if_neg (fun h => e (key.1 h)), if_neg (by omega)]
    next f hb => cases h

/-- A load completes when every address is inside memory. -/
theorem State.loadRegs_completes {s : State} {i a n : Nat} (h : a + n ≤ 4096) :
    ∃ t, s.loadRegs i a n = .ok t := by
  induction n generalizing s i a with
  | zero => exact ⟨s, rfl⟩
  | succ n ih =>
    have hr : s.memRead a = .ok (s.byteAt a) := State.memRead_ok.2 ⟨by omega, rfl⟩
    simp only [State.loadRegs, hr]
    exact ih (by omega)

/-- A load that completes had every address inside memory. -/
theorem State.loadRegs_ok_inside {s t : State} {i a n : Nat} (hn : 0 < n) (h : s.loadRegs i a n = .ok t) :
    a + n ≤ 4096 := by
  induction n generalizing s i a with
  | zero => omega
  | succ n ih =>
    simp only [State.loadRegs] at h
    split at h
    next b hb =>
      have ha := (State.memRead_ok.1 hb).1
      cases n with
      | zero => omega
      | succ n =>
        have := ih (by omega) h
        omega
    next f hb => cases h

/-- A load that stops does so for the first address outside memory. -/
theorem State.loadRegs_error {s : State} {i a n : Nat} {f : Fault} (h : s.loadRegs i a n = .error f) :
    4096 < a + n ∧ f = .memBounds (max a 4096) s.instrAddr := by
  induction n generalizing s i a with
  | zero => simp [State.loadRegs] at h
  | succ n ih =>
    simp only [State.loadRegs] at h
    split at h
    next b hb =>
      have ha := (State.memRead_ok.1 hb).1
      obtain ⟨h1, h2⟩ := ih h
      refine ⟨by omega, ?_⟩
      rw [h2, show max (a + 1) 4096 = max a 4096 by omega]
      rfl
    next f' hb =>
      cases h
      obtain ⟨h1, rfl⟩ := State.memRead_error.1 hb
      exact ⟨by omega, by rw [show max a 4096 = a by omega]⟩

/-! ### I, the stack, the operands -/

theorem State.writeIndex_ok {s t : State} {n : Nat} :
    s.writeIndex n = .ok t ↔ n ≤ 0xFFFF ∧ t = s.setIdx (BitVec.ofNat 16 n) := by
  unfold State.writeIndex
  split
  next h => simp [h, eq_comm]
  next h => simp [h]

theorem State.writeIndex_error {s : State} {n : Nat} {f : Fault} :
    s.writeIndex n = .error f ↔ 0xFFFF < n ∧ f = .indexOverflow n s.instrAddr := by
  unfold State.writeIndex
  split
  next h => simp; omega
  next h => simp [eq_comm]; omega

theorem State.push_ok {s t : State} {w : Word} :
    s.push w = .ok t ↔ s.stackHasRoom = true ∧ t = s.setStack (s.stack ++ [w]) := by
  unfold State.push
  split
  next h => simp [h, eq_comm]
  next h => simp [h]

theorem State.push_error {s : State} {w : Word} {f : Fault} :
    s.push w = .error f ↔ s.stackHasRoom = false ∧ f = .stackOverflow s.instrAddr := by
  unfold State.push
  split
  next h => simp [h]
  next h => simp [h, eq_comm]

theorem State.stackHasRoom_iff {s : State} :
    s.stackHasRoom = true ↔ ∀ d, s.cfg.stackDepth = some d → s.stack.length < d := by
  unfold State.stackHasRoom
  split
  next h => simp [h]
  next d h => simp [h]

theorem State.pop_ok {s t : State} {w : Word} :
    s.pop = .ok (w, t) ↔ s.stack = t.stack ++ [w] ∧ t = s.setStack t.stack := by
  unfold State.pop
  cases hs : s.stack using List.reverseRecOn with
  | nil => simp
  | append_singleton l x =>
    simp only [List.getLast?_append, List.getLast?_singleton, Option.some_or, List.dropLast_concat]
    constructor
    · rintro h
      cases h
      exact ⟨rfl, rfl⟩
    · rintro ⟨h1, h2⟩
      obtain ⟨h3, h4⟩ := List.append_inj' h1 rfl
      cases h4
      rw [h2, h3]

theorem State.pop_error {s : State} {f : Fault} :
    s.pop = .error f ↔ s.stack = [] ∧ f = .stackUnderflow s.instrAddr := by
  unfold State.pop
  split
  next w h =>
    have : s.stack ≠ [] := by rintro e; simp [e] at h
    simp [this]
  next h => simp [List.getLast?_eq_none_iff.1 h, eq_comm]

theorem State.keyOperand_ok {s : State} {x k : Nibble} :
    s.keyOperand x = .ok k ↔ (s.reg x).toNat ≤ 0xF ∧ k = (s.reg x).setWidth 4 := by
  unfold State.keyOperand
  split
  next h => simp [h, eq_comm]
  next h => simp [h]

theorem State.keyOperand_error {s : State} {x : Nibble} {f : Fault} :
    s.keyOperand x = .error f ↔ 0xF < (s.reg x).toNat ∧ f = .keyRange (s.reg x) s.instrAddr := by
  unfold State.keyOperand
  split
  next h => simp; omega
  next h => simp [eq_comm]; omega

theorem State.digitOperand_ok {s : State} {x : Nibble} {d : Nat} :
    s.digitOperand x = .ok d ↔ (s.reg x).toNat ≤ 0xF ∧ d = (s.reg x).toNat := by
  unfold State.digitOperand
  split
  next h => simp [h, eq_comm]
  next h => simp [h]

theorem State.digitOperand_error {s : State} {x : Nibble} {f : Fault} :
    s.digitOperand x = .error f ↔ 0xF < (s.reg x).toNat ∧ f = .fontDigit (s.reg x) s.instrAddr := by
  unfold State.digitOperand
  split
  next h => simp; omega
  next h => simp [eq_comm]; omega

/-- The advance of I after a bulk transfer changes I only, and only under Q_MEMIDX. -/
theorem State.advanceIndex_ok {s t : State} {x : Nibble} :
    s.advanceIndex x = .ok t ↔
      (s.cfg.qMemIdx = false ∧ t = s) ∨
      (s.cfg.qMemIdx = true ∧ s.idx.toNat + x.toNat + 1 ≤ 0xFFFF ∧
        t = s.setIdx (BitVec.ofNat 16 (s.idx.toNat + x.toNat + 1))) := by
  unfold State.advanceIndex
  split
  next h => simp [h, State.writeIndex_ok]
  next h => simp [h, eq_comm]

/-- A skip changes pc only. -/
theorem State.skipIf_eq (s : State) (c : Bool) : s.skipIf c = s.setPc (if c then s.pc + 2#16 else s.pc) := by
  cases c <;> rfl

theorem State.length_regsUpTo (s : State) (x : Nibble) : (s.regsUpTo x).length = x.toNat + 1 := by
  have := x.isLt
  simp [State.regsUpTo]; omega

theorem State.getD_regsUpTo (s : State) (x y : Nibble) (h : y.toNat ≤ x.toNat) :
    (s.regsUpTo x).getD y.toNat 0 = s.reg y := by
  have hy := y.isLt
  have h1 : y.toNat < x.toNat + 1 := by omega
  have h2 : y.toNat < 16 := hy
  simp [State.regsUpTo, State.reg, List.getD_eq_getElem?_getD, h1, h2]

/-! ### The keys -/

theorem State.mem_pressedKeys {s : State} {k : Nat} :
    k ∈ s.pressedKeys ↔ ∃ h : k < 16, s.keys[k] = true := by
  simp only [State.pressedKeys, List.mem_filter, List.mem_range]
  constructor
  · rintro ⟨h, hk⟩
    exact ⟨h, by simpa [h] using hk⟩
  · rintro ⟨h, hk⟩
    exact ⟨h, by simpa [h] using hk⟩

/-- The key KEY_CHOICE takes is a pressed one. -/
theorem State.chosenKey_mem {s : State} (h : s.pressedKeys ≠ []) : s.chosenKey ∈ s.pressedKeys := by
  have hl : 0 < s.pressedKeys.length := List.length_pos_iff.2 h
  unfold State.chosenKey
  split
  · cases hk : s.pressedKeys with
    | nil => exact absurd hk h
    | cons k l => simp
  · have := Nat.mod_lt (Config.freeKeyIndex s.draws) hl
    simp [List.getD_eq_getElem?_getD, this]

/-- A key notification changes the pressed-key set only. -/
theorem State.applyKeyEvent_eq (s : State) (e : KeyEvent) : s.applyKeyEvent e = s.setKeys (s.applyKeyEvent e).keys := by
  cases e <;> simp only [State.applyKeyEvent] <;> split <;> rfl

/-- A poll changes the keys, the queue and the count of draws only. -/
theorem State.pollKeys_eq (s : State) :
    s.pollKeys = ((s.setKeys s.pollKeys.keys).setKeyQueue s.pollKeys.keyQueue).countDraw := by
  unfold State.pollKeys
  split
  · rfl
  next e q h => rw [State.applyKeyEvent_eq s e]; rfl

/-! ### Fetch and step -/

theorem State.fetchBytes_ok {s : State} {l : List Byte} :
    s.fetchBytes = .ok l ↔
      s.pc.toNat + 1 < 4096 ∧ l = [s.byteAt s.pc.toNat, s.byteAt (s.pc.toNat + 1)] := by
  unfold State.fetchBytes
  split
  next h => simp [h, eq_comm]
  next h => simp [h]

/-- Everything an instruction step can answer a next state by: an executed instruction or a reported unknown word. -/
theorem instrStep_next {s t : State} (h : instrStep s = .next t) :
    s.pc.toNat + 1 < 4096 ∧
    ((∃ i, decode [s.byteAt s.pc.toNat, s.byteAt (s.pc.toNat + 1)] = .instr i ∧
        exec i (s.setPc (s.pc + 2#16)) = .next t) ∨
     (∃ w, decode [s.byteAt s.pc.toNat, s.byteAt (s.pc.toNat + 1)] = .unknown w ∧
        t = (s.setPc (s.pc + 2#16)).reportUnknown w)) := by
  unfold instrStep at h
  split at h
  next l hl =>
    obtain ⟨h1, rfl⟩ := State.fetchBytes_ok.1 hl
    refine ⟨h1, ?_⟩
    unfold runDecoded at h
    split at h
    next i hi => exact .inl ⟨i, hi, h⟩
    next w hw =>
      cases h
      exact .inr ⟨w, hw, rfl⟩
    next => cases h
  next f hf => cases h

/-- Everything a step can answer a next state by: it is one move of one agent. -/
theorem step_next {s t : State} (h : step s = .next t) :
    s.status = .running ∧
    ((s.phase = .poll ∧ t = s.pollKeys.startBurst) ∨
     (∃ k, s.phase = .burst (k + 1) ∧ instrStep (s.setPhase (.burst k)).countStep = .next t) ∨
     (s.phase = .burst 0 ∧ t = s.tick.setPhase .present) ∨
     (s.phase = .present ∧ t = s.present.setPhase .audio) ∨
     (s.phase = .audio ∧ t = s.driveGate.setPhase .poll)) := by
  unfold step at h
  split at h
  next hs =>
    refine ⟨hs, ?_⟩
    unfold runPhase at h
    split at h
    next hp => cases h; exact .inl ⟨hp, rfl⟩
    next k hp => exact .inr (.inl ⟨k, hp, h⟩)
    next hp => cases h; exact .inr (.inr (.inl ⟨hp, rfl⟩))
    next hp => cases h; exact .inr (.inr (.inr (.inl ⟨hp, rfl⟩)))
    next hp => cases h; exact .inr (.inr (.inr (.inr ⟨hp, rfl⟩)))
  next => cases h
  next => cases h

end Sys2Proof.Machine
end

