-- ==== Sys2Proof/Laws/Draw.lean ====
section
/-! SUPPORT. What drawing does, one column, one row, several rows at a time (R211). -/

namespace Sys2Proof.Machine

/-- A column toggles its own pixel, if the bit is set and the pixel is not clipped, and no other. -/
theorem drawColumn_pixel (row : Fin 32) (sx : Nat) (b : Byte) (acc : Display × Bool) (c : Nat)
    (col : Fin 64) (r : Fin 32) :
    (drawColumn row sx b acc c).1.pixel col r =
      (acc.1.pixel col r ^^ decide (r = row ∧ col.val = sx + c ∧ b.getMsbD c = true)) := by
  unfold drawColumn
  split
  next h =>
    split
    next hb =>
      by_cases hr : r = row
      · by_cases hc : col.val = sx + c
        · have e : col = ⟨sx + c, h⟩ := Fin.ext hc
          subst hr e
          cases hp : acc.1.pixel ⟨sx + c, h⟩ r <;> simp [Display.pixel_setPixel, hb]
        · have e : col ≠ ⟨sx + c, h⟩ := fun e => hc (congrArg Fin.val e)
          split <;> simp [Display.pixel_setPixel, e, hc]
      · split <;> simp [Display.pixel_setPixel, hr]
    next hb => simp [hb]
  next h =>
    have : col.val ≠ sx + c := by have := col.isLt; omega
    simp [this]

/-- A column is a collision exactly when it turns a lit pixel off; an earlier collision stays. -/
theorem drawColumn_hit (row : Fin 32) (sx : Nat) (b : Byte) (acc : Display × Bool) (c : Nat) :
    (drawColumn row sx b acc c).2 = true ↔
      acc.2 = true ∨ ∃ col : Fin 64, col.val = sx + c ∧ b.getMsbD c = true ∧ acc.1.pixel col row = true := by
  unfold drawColumn
  split
  next h =>
    have key : (∃ col : Fin 64, col.val = sx + c ∧ b.getMsbD c = true ∧ acc.1.pixel col row = true) ↔
        b.getMsbD c = true ∧ acc.1.pixel ⟨sx + c, h⟩ row = true := by
      constructor
      · rintro ⟨col, h1, h2⟩
        obtain rfl : col = ⟨sx + c, h⟩ := Fin.ext h1
        exact h2
      · exact fun h2 => ⟨⟨sx + c, h⟩, rfl, h2⟩
    rw [key]
    split
    next hb =>
      split
      next hp => simp [hb, hp]
      next hp => simp [hp]
    next hb => simp [hb]
  next h =>
    refine ⟨.inl, ?_⟩
    rintro (h1 | ⟨col, h1, -⟩)
    · exact h1
    · have := col.isLt
      omega

/-- Several distinct columns of one row, left to right: each toggles its own pixel, and the collisions add up. -/
theorem drawColumns (row : Fin 32) (sx : Nat) (b : Byte) (l : List Nat) (hl : l.Nodup) (acc : Display × Bool) :
    (∀ col r, (l.foldl (drawColumn row sx b) acc).1.pixel col r =
      (acc.1.pixel col r ^^ decide (r = row ∧ ∃ c ∈ l, col.val = sx + c ∧ b.getMsbD c = true))) ∧
    ((l.foldl (drawColumn row sx b) acc).2 = true ↔
      acc.2 = true ∨ ∃ col : Fin 64, (∃ c ∈ l, col.val = sx + c ∧ b.getMsbD c = true) ∧
        acc.1.pixel col row = true) := by
  induction l generalizing acc with
  | nil => simp
  | cons c l ih =>
    obtain ⟨hc, hl⟩ := List.nodup_cons.1 hl
    obtain ⟨ih1, ih2⟩ := ih hl (drawColumn row sx b acc c)
    refine ⟨fun col r => ?_, ?_⟩
    · simp only [List.foldl_cons, ih1, drawColumn_pixel, Bool.xor_assoc]
      congr 1
      by_cases hr : r = row
      · by_cases h1 : col.val = sx + c ∧ b.getMsbD c = true
        · have : ¬ ∃ c' ∈ l, col.val = sx + c' ∧ b.getMsbD c' = true := by
            rintro ⟨c', hm, h2, -⟩
            exact hc (by rwa [show c = c' by omega])
          rw [decide_eq_true ⟨hr, h1⟩, decide_eq_false fun hh => this hh.2,
            decide_eq_true ⟨hr, c, List.mem_cons_self, h1⟩]
          rfl
        · simp [hr, h1]
      · simp [hr]
    · simp only [List.foldl_cons, ih2, drawColumn_hit]
      constructor
      · rintro ((h | ⟨col, h1, h2, h3⟩) | ⟨col, ⟨c', hm, h1, h2⟩, h3⟩)
        · exact .inl h
        · exact .inr ⟨col, ⟨c, List.mem_cons_self, h1, h2⟩, h3⟩
        · have hne : ¬ (col.val = sx + c ∧ b.getMsbD c = true) := by
            rintro ⟨h4, -⟩
            exact hc (by rwa [show c = c' by omega])
          rw [drawColumn_pixel] at h3
          exact .inr ⟨col, ⟨c', List.mem_cons_of_mem _ hm, h1, h2⟩, by simpa [hne] using h3⟩
      · rintro (h | ⟨col, ⟨c', hm, h1, h2⟩, h3⟩)
        · exact .inl (.inl h)
        · rcases List.mem_cons.1 hm with rfl | hm
          · exact .inl (.inr ⟨col, h1, h2, h3⟩)
          · have hne : ¬ (col.val = sx + c ∧ b.getMsbD c = true) := by
              rintro ⟨h4, -⟩
              exact hc (by rwa [show c = c' by omega])
            exact .inr ⟨col, ⟨c', hm, h1, h2⟩, by rw [drawColumn_pixel]; simpa [hne] using h3⟩

/-- The byte of a sprite row has a set bit at column col when it starts at column sx. -/
def rowBit (sx : Nat) (b : Byte) (col : Nat) : Prop := sx ≤ col ∧ col < sx + 8 ∧ b.getMsbD (col - sx) = true

theorem exists_column_iff (sx : Nat) (b : Byte) (col : Nat) :
    (∃ c ∈ [0, 1, 2, 3, 4, 5, 6, 7], col = sx + c ∧ b.getMsbD c = true) ↔ rowBit sx b col := by
  unfold rowBit
  constructor
  · rintro ⟨c, hc, rfl, h⟩
    have : c < 8 := by fin_cases hc <;> decide
    exact ⟨by omega, by omega, by rwa [show sx + c - sx = c by omega]⟩
  · rintro ⟨h1, h2, h3⟩
    refine ⟨col - sx, ?_, by omega, h3⟩
    have : col - sx < 8 := by omega
    interval_cases col - sx <;> decide

/-- A sprite row toggles exactly its set bits, clipped at the right edge; it is a collision when one was lit. -/
theorem drawRow_spec (row : Fin 32) (sx : Nat) (b : Byte) (acc : Display × Bool) :
    (∀ col r, ((drawRow row sx b acc).1.pixel col r = true ↔
      ¬ (acc.1.pixel col r = true ↔ r = row ∧ rowBit sx b col.val))) ∧
    ((drawRow row sx b acc).2 = true ↔
      acc.2 = true ∨ ∃ col : Fin 64, rowBit sx b col.val ∧ acc.1.pixel col row = true) := by
  obtain ⟨h1, h2⟩ := drawColumns row sx b [0, 1, 2, 3, 4, 5, 6, 7] (by decide) acc
  refine ⟨fun col r => ?_, ?_⟩
  · unfold drawRow
    rw [h1]
    by_cases h : r = row ∧ rowBit sx b col.val
    · rw [decide_eq_true ⟨h.1, (exists_column_iff sx b col.val).2 h.2⟩]
      cases acc.1.pixel col r <;> simp [h.1, h.2]
    · rw [decide_eq_false fun hh => h ⟨hh.1, (exists_column_iff sx b col.val).1 hh.2⟩]
      cases acc.1.pixel col r <;> simp [h]
  · unfold drawRow
    rw [h2]
    simp only [exists_column_iff]

/-- Sprite row k of a sprite that starts at display row sy has a set bit at column col of display row r. -/
def State.spriteRow (s : State) (sx sy k n : Nat) (col : Fin 64) (r : Fin 32) : Prop :=
  sy + k ≤ r.val ∧ r.val < sy + k + n ∧ rowBit sx (s.byteAt (s.idx.toNat + (r.val - sy))) col.val

/-- Rows k to k + n - 1 of a sprite, when they can be read, toggle exactly their set bits, clipped at both edges; they
collide when one of those was lit. -/
theorem State.drawRows_ok {s : State} {sx sy k n : Nat} {acc out : Display × Bool}
    (h : s.drawRows sx sy k acc n = .ok out) :
    (∀ col r, (out.1.pixel col r = true ↔ ¬ (acc.1.pixel col r = true ↔ s.spriteRow sx sy k n col r))) ∧
    (out.2 = true ↔ acc.2 = true ∨ ∃ col r, s.spriteRow sx sy k n col r ∧ acc.1.pixel col r = true) := by
  induction n generalizing k acc with
  | zero =>
    obtain rfl : acc = out := by simpa [State.drawRows] using h
    have hn : ∀ col r, ¬ s.spriteRow sx sy k 0 col r := fun col r hh => by
      have := hh.1
      have := hh.2.1
      omega
    simp [hn]
  | succ n ih =>
    simp only [State.drawRows] at h
    split at h
    next hrow =>
      split at h
      next b hb =>
        obtain ⟨-, rfl⟩ := State.memRead_ok.1 hb
        obtain ⟨ih1, ih2⟩ := ih h
        obtain ⟨d1, d2⟩ := drawRow_spec ⟨sy + k, hrow⟩ sx (s.byteAt (s.idx.toNat + k)) acc
        have hrowbit : ∀ col : Fin 64, s.spriteRow sx sy k (n + 1) col ⟨sy + k, hrow⟩ ↔
            rowBit sx (s.byteAt (s.idx.toNat + k)) col.val := fun col => by
          simp only [State.spriteRow, show sy + k - sy = k by omega]
          exact ⟨fun hh => hh.2.2, fun hh => ⟨le_refl _, by omega, hh⟩⟩
        have hhere : ∀ col : Fin 64, ¬ s.spriteRow sx sy (k + 1) n col ⟨sy + k, hrow⟩ := fun col hh => by
          have : sy + (k + 1) ≤ sy + k := hh.1
          omega
        have hother : ∀ (col : Fin 64) (r : Fin 32), r ≠ ⟨sy + k, hrow⟩ →
            (s.spriteRow sx sy k (n + 1) col r ↔ s.spriteRow sx sy (k + 1) n col r) := fun col r hr => by
          have hr' : r.val ≠ sy + k := fun e => hr (Fin.ext e)
          simp only [State.spriteRow]
          constructor
          · rintro ⟨h1, h2, h3⟩
            exact ⟨by omega, by omega, h3⟩
          · rintro ⟨h1, h2, h3⟩
            exact ⟨by omega, by omega, h3⟩
        refine ⟨fun col r => ?_, ?_⟩
        · rw [ih1, d1]
          by_cases hr : r = ⟨sy + k, hrow⟩
          · subst hr
            rw [hrowbit]
            simp [hhere]
          · rw [hother col r hr]
            simp [hr]
        · rw [ih2, d2]
          constructor
          · rintro ((h1 | ⟨col, h1, h2⟩) | ⟨col, r, h1, h2⟩)
            · exact .inl h1
            · exact .inr ⟨col, _, (hrowbit col).2 h1, h2⟩
            · have hr : r ≠ ⟨sy + k, hrow⟩ := by
                rintro rfl
                exact hhere col h1
              exact .inr ⟨col, r, (hother col r hr).2 h1, by simpa [hr] using (d1 col r).1 h2⟩
          · rintro (h1 | ⟨col, r, h1, h2⟩)
            · exact .inl (.inl h1)
            · by_cases hr : r = ⟨sy + k, hrow⟩
              · subst hr
                exact .inl (.inr ⟨col, (hrowbit col).1 h1, h2⟩)
              · exact .inr ⟨col, r, (hother col r hr).1 h1, (d1 col r).2 (by simp [hr, h2])⟩
      next f hb => cases h
    next hrow =>
      obtain rfl : acc = out := by simpa using h
      have hn : ∀ (col : Fin 64) (r : Fin 32), ¬ s.spriteRow sx sy k (n + 1) col r := fun col r hh => by
        have := hh.1
        have := r.isLt
        omega
      simp [hn]

/-- Drawing completes when every unclipped row lies inside memory. -/
theorem State.drawRows_completes {s : State} {sx sy k n : Nat} {acc : Display × Bool}
    (h : ∀ j < n, sy + (k + j) < 32 → s.idx.toNat + (k + j) < 4096) :
    ∃ out, s.drawRows sx sy k acc n = .ok out := by
  induction n generalizing k acc with
  | zero => exact ⟨acc, rfl⟩
  | succ n ih =>
    simp only [State.drawRows]
    split
    next hrow =>
      have hr : s.memRead (s.idx.toNat + k) = .ok (s.byteAt (s.idx.toNat + k)) :=
        State.memRead_ok.2 ⟨by simpa using h 0 (by omega) (by simpa using hrow), rfl⟩
      simp only [hr]
      apply ih
      intro j hj
      have := h (j + 1) (by omega)
      rw [show k + (j + 1) = k + 1 + j by omega] at this
      exact this
    next => exact ⟨acc, rfl⟩

/-- Drawing that completed read every unclipped row, so each lies inside memory. -/
theorem State.drawRows_ok_inside {s : State} {sx sy k n : Nat} {acc out : Display × Bool}
    (h : s.drawRows sx sy k acc n = .ok out) :
    ∀ j < n, sy + (k + j) < 32 → s.idx.toNat + (k + j) < 4096 := by
  induction n generalizing k acc with
  | zero => omega
  | succ n ih =>
    intro j hj hrow
    simp only [State.drawRows, dif_pos (show sy + k < 32 by omega)] at h
    split at h
    next b hb =>
      cases j with
      | zero => exact (State.memRead_ok.1 hb).1
      | succ j =>
        have := ih h j (by omega) (by omega)
        omega
    next => cases h

/-- Drawing stops for the first unclipped row outside memory. -/
theorem State.drawRows_error {s : State} {sx sy k n : Nat} {acc : Display × Bool} {f : Fault}
    (h : s.drawRows sx sy k acc n = .error f) :
    ∃ j < n, sy + (k + j) < 32 ∧ 4096 ≤ s.idx.toNat + (k + j) ∧
      (∀ i < j, s.idx.toNat + (k + i) < 4096) ∧ f = .memBounds (s.idx.toNat + (k + j)) s.instrAddr := by
  induction n generalizing k acc with
  | zero => simp [State.drawRows] at h
  | succ n ih =>
    simp only [State.drawRows] at h
    split at h
    next hrow =>
      split at h
      next b hb =>
        obtain ⟨hlt, -⟩ := State.memRead_ok.1 hb
        obtain ⟨j, h1, h2, h3, h4, h5⟩ := ih h
        have e : k + 1 + j = k + (j + 1) := by omega
        refine ⟨j + 1, by omega, by omega, by omega, fun i hi => ?_, by rw [h5, e]⟩
        cases i with
        | zero => exact hlt
        | succ i =>
          have := h4 i (by omega)
          omega
      next f' hb =>
        cases h
        obtain ⟨h1, rfl⟩ := State.memRead_error.1 hb
        exact ⟨0, by omega, by simpa using hrow, by simpa using h1, by simp, rfl⟩
    next => cases h

end Sys2Proof.Machine
end

