-- ==== Sys2Proof/Laws/Encoding.lean ====
section
/-! SUPPORT. The fields of a composed word, and a word composed of its fields (R71). -/

namespace Sys2Proof

@[simp] theorem opField_wordXNN (op x : Nibble) (nn : Byte) : opField (wordXNN op x nn) = op := by
  apply BitVec.eq_of_getLsbD_eq
  intro i hi
  interval_cases i <;> simp [wordXNN, opField]

@[simp] theorem xField_wordXNN (op x : Nibble) (nn : Byte) : xField (wordXNN op x nn) = x := by
  apply BitVec.eq_of_getLsbD_eq
  intro i hi
  interval_cases i <;> simp [wordXNN, xField]

@[simp] theorem nnField_wordXNN (op x : Nibble) (nn : Byte) : nnField (wordXNN op x nn) = nn := by
  apply BitVec.eq_of_getLsbD_eq
  intro i hi
  interval_cases i <;> simp [wordXNN, nnField]

@[simp] theorem opField_wordXYN (op x y n : Nibble) : opField (wordXYN op x y n) = op := by
  apply BitVec.eq_of_getLsbD_eq
  intro i hi
  interval_cases i <;> simp [wordXYN, opField]

@[simp] theorem xField_wordXYN (op x y n : Nibble) : xField (wordXYN op x y n) = x := by
  apply BitVec.eq_of_getLsbD_eq
  intro i hi
  interval_cases i <;> simp [wordXYN, xField]

@[simp] theorem yField_wordXYN (op x y n : Nibble) : yField (wordXYN op x y n) = y := by
  apply BitVec.eq_of_getLsbD_eq
  intro i hi
  interval_cases i <;> simp [wordXYN, yField]

@[simp] theorem nField_wordXYN (op x y n : Nibble) : nField (wordXYN op x y n) = n := by
  apply BitVec.eq_of_getLsbD_eq
  intro i hi
  interval_cases i <;> simp [wordXYN, nField]

@[simp] theorem opField_wordNNN (op : Nibble) (nnn : Addr12) : opField (wordNNN op nnn) = op := by
  apply BitVec.eq_of_getLsbD_eq
  intro i hi
  interval_cases i <;> simp [wordNNN, opField]

@[simp] theorem nnnField_wordNNN (op : Nibble) (nnn : Addr12) : nnnField (wordNNN op nnn) = nnn := by
  apply BitVec.eq_of_getLsbD_eq
  intro i hi
  interval_cases i <;> simp [wordNNN, nnnField]

/-- A word is its op, x and nn fields. -/
theorem wordXNN_fields (w : Word) : wordXNN (opField w) (xField w) (nnField w) = w := by
  apply BitVec.eq_of_getLsbD_eq
  intro i hi
  interval_cases i <;> simp [wordXNN, opField, xField, nnField]

/-- A word is its op, x, y and n fields. -/
theorem wordXYN_fields (w : Word) : wordXYN (opField w) (xField w) (yField w) (nField w) = w := by
  apply BitVec.eq_of_getLsbD_eq
  intro i hi
  interval_cases i <;> simp [wordXYN, opField, xField, yField, nField]

/-- A word is its op and nnn fields. -/
theorem wordNNN_fields (w : Word) : wordNNN (opField w) (nnnField w) = w := by
  apply BitVec.eq_of_getLsbD_eq
  intro i hi
  interval_cases i <;> simp [wordNNN, opField, nnnField]

/-- Two bytes in memory order make the word they came from (R55). -/
@[simp] theorem wordOfBytes_bytes (w : Word) : wordOfBytes (highByte w) (lowByte w) = w := by
  apply BitVec.eq_of_getLsbD_eq
  intro i hi
  interval_cases i <;> simp [wordOfBytes, highByte, lowByte]

/-- Decoding two bytes is decoding their word (R70). -/
@[simp] theorem decode_pair (hi lo : Byte) (l : List Byte) :
    decode (hi :: lo :: l) = decodeWord (wordOfBytes hi lo) := rfl

/-- The word of two bytes as a number: the first byte is the high one (R55). -/
theorem toNat_wordOfBytes (hi lo : Byte) : (wordOfBytes hi lo).toNat = hi.toNat * 256 + lo.toNat := by
  have h : hi.toNat < 256 := hi.isLt
  have h' : lo.toNat < 2 ^ 8 := lo.isLt
  have e : (wordOfBytes hi lo).toNat = hi.toNat <<< 8 ||| lo.toNat := by
    have h1 : hi.toNat * 256 % 65536 = hi.toNat * 256 := Nat.mod_eq_of_lt (by omega)
    have h2 : lo.toNat % 65536 = lo.toNat := Nat.mod_eq_of_lt (by omega)
    simp [wordOfBytes, Nat.shiftLeft_eq, h1, h2]
  rw [e, ← Nat.shiftLeft_add_eq_or_of_lt h', Nat.shiftLeft_eq]

end Sys2Proof
end

