-- ==== Sys2Proof/Laws/Exec.lean ====
section
/-! SUPPORT. What each instruction that can stop, or branches, answers when it answers a next state: one lemma each. The
others answer `.next` of an explicit state by definition. -/

namespace Sys2Proof.Machine

theorem execCall_next {nnn : Addr12} {s t : State} :
    execCall nnn s = .next t ↔
      s.stackHasRoom = true ∧ t = (s.setStack (s.stack ++ [s.pc])).setPc (widen nnn) := by
  unfold execCall
  cases h : s.push s.pc with
  | ok s' =>
    obtain ⟨h1, rfl⟩ := State.push_ok.1 h
    simp [h1, eq_comm]
  | error f => simp [(State.push_error.1 h).1, raise]

theorem execRet_next {s t : State} :
    execRet s = .next t ↔ ∃ l w, s.stack = l ++ [w] ∧ t = (s.setStack l).setPc w := by
  unfold execRet
  cases h : s.pop with
  | ok p =>
    obtain ⟨w, s'⟩ := p
    obtain ⟨h1, h2⟩ := State.pop_ok.1 h
    constructor
    · rintro e
      cases e
      exact ⟨s'.stack, w, h1, by rw [h2]; rfl⟩
    · rintro ⟨l, w', h3, rfl⟩
      obtain ⟨h4, h5⟩ := List.append_inj' (h1.symm.trans h3) rfl
      cases h5
      rw [h2, h4]
  | error f =>
    constructor
    · intro e
      cases e
    · rintro ⟨l, w, h3, -⟩
      simp [(State.pop_error.1 h).1] at h3

theorem execSkp_next {x : Nibble} {s t : State} :
    execSkp x s = .next t ↔
      (s.reg x).toNat ≤ 0xF ∧ t = s.skipIf (s.pressed ((s.reg x).setWidth 4)) := by
  unfold execSkp
  cases h : s.keyOperand x with
  | ok k =>
    obtain ⟨h1, rfl⟩ := State.keyOperand_ok.1 h
    simp [h1, eq_comm]
  | error f =>
    have := (State.keyOperand_error.1 h).1
    simp [raise]
    omega

theorem execSknp_next {x : Nibble} {s t : State} :
    execSknp x s = .next t ↔
      (s.reg x).toNat ≤ 0xF ∧ t = s.skipIf (!s.pressed ((s.reg x).setWidth 4)) := by
  unfold execSknp
  cases h : s.keyOperand x with
  | ok k =>
    obtain ⟨h1, rfl⟩ := State.keyOperand_ok.1 h
    simp [h1, eq_comm]
  | error f =>
    have := (State.keyOperand_error.1 h).1
    simp [raise]
    omega

theorem execAddI_next {x : Nibble} {s t : State} :
    execAddI x s = .next t ↔
      s.idx.toNat + (s.reg x).toNat ≤ 0xFFFF ∧
        t = s.setIdx (BitVec.ofNat 16 (s.idx.toNat + (s.reg x).toNat)) := by
  unfold execAddI
  rw [finish_next, State.writeIndex_ok]

theorem execLdF_next {x : Nibble} {s t : State} :
    execLdF x s = .next t ↔
      (s.reg x).toNat ≤ 0xF ∧
        t = s.setIdx (BitVec.ofNat 16 (s.cfg.fontBase.val + (s.reg x).toNat * 5)) := by
  unfold execLdF
  have hb := s.cfg.fontBase.isLt
  cases h : s.digitOperand x with
  | ok d =>
    obtain ⟨h1, rfl⟩ := State.digitOperand_ok.1 h
    simp only [finish_next, State.writeIndex_ok, h1, true_and]
    exact ⟨fun e => e.2, fun e => ⟨by omega, e⟩⟩
  | error f =>
    have := (State.digitOperand_error.1 h).1
    simp [raise]
    omega

/-- A completed decimal store changes memory only. -/
theorem execLdB_next {x : Nibble} {s t : State} (h : execLdB x s = .next t) :
    s.storeBytes s.idx.toNat (decimalDigits (s.reg x)) = .ok t ∧ t = s.setMem t.mem := by
  have h' := finish_next.1 h
  exact ⟨h', (State.storeBytes_ok h').1⟩

/-- A completed bulk store changes memory, and I by its advance. -/
theorem execLdMemVx_next {x : Nibble} {s t : State} (h : execLdMemVx x s = .next t) :
    ∃ m, s.storeBytes s.idx.toNat (s.regsUpTo x) = .ok (s.setMem m) ∧
      ((s.cfg.qMemIdx = false ∧ t = s.setMem m) ∨
       (s.cfg.qMemIdx = true ∧
        t = (s.setMem m).setIdx (BitVec.ofNat 16 (s.idx.toNat + x.toNat + 1)))) := by
  unfold execLdMemVx at h
  split at h
  next s' hs =>
    have h1 := (State.storeBytes_ok hs).1
    rw [finish_next, State.advanceIndex_ok, h1] at h
    refine ⟨s'.mem, by rw [← h1]; exact hs, ?_⟩
    rcases h with ⟨h2, h3⟩ | ⟨h2, -, h3⟩
    · exact .inl ⟨h2, h3⟩
    · exact .inr ⟨h2, h3⟩
  next => cases h

/-- A completed bulk load changes the general registers, and I by its advance. -/
theorem execLdVxMem_next {x : Nibble} {s t : State} (h : execLdVxMem x s = .next t) :
    ∃ s', s.loadRegs 0 s.idx.toNat (x.toNat + 1) = .ok s' ∧ s' = { s with v := s'.v } ∧
      ((s.cfg.qMemIdx = false ∧ t = s') ∨
       (s.cfg.qMemIdx = true ∧ t = s'.setIdx (BitVec.ofNat 16 (s.idx.toNat + x.toNat + 1)))) := by
  have hx := x.isLt
  unfold execLdVxMem at h
  split at h
  next s' hs =>
    have h1 := (State.loadRegs_ok (by omega) hs).1
    rw [finish_next, State.advanceIndex_ok] at h
    refine ⟨s', hs, h1, ?_⟩
    rcases h with ⟨h2, h3⟩ | ⟨h2, -, h3⟩
    · exact .inl ⟨by rw [h1] at h2; exact h2, h3⟩
    · refine .inr ⟨by rw [h1] at h2; exact h2, ?_⟩
      have hi : s'.idx = s.idx := by rw [h1]
      rw [h3, hi]
  next => cases h

/-- The key wait goes back to itself, or loads the chosen key and counts the draw. -/
theorem execLdVxK_next {x : Nibble} {s t : State} :
    execLdVxK x s = .next t ↔
      (s.pressedKeys = [] ∧ t = s.setPc (s.pc - 2#16)) ∨
      (s.pressedKeys ≠ [] ∧ t = (s.setReg x (BitVec.ofNat 8 s.chosenKey)).countKeyDraw) := by
  unfold execLdVxK
  split
  next h => simp [h, eq_comm]
  next h => simp [h, eq_comm]

/-- A completed draw changes the display, VF and the redraw request. -/
theorem execDrw_next {x y n : Nibble} {s t : State} :
    execDrw x y n s = .next t ↔ ∃ d hit,
      s.drawRows ((s.reg x).toNat % 64) ((s.reg y).toNat % 32) 0 (s.disp, false) n.toNat = .ok (d, hit) ∧
      t = ((s.setDisp d).setReg flagReg (flagByte hit)).setRedraw true := by
  unfold execDrw
  split
  next d hit h =>
    rw [h]
    constructor
    · rintro e
      cases e
      exact ⟨d, hit, rfl, rfl⟩
    · rintro ⟨d', hit', e, rfl⟩
      cases e
      rfl
  next f h =>
    rw [h]
    constructor
    · intro e
      cases e
    · rintro ⟨_, _, e, -⟩
      cases e

theorem execLoose5_next {x y n : Nibble} {s t : State} :
    execLoose5 x y n s = .next t ↔
      (s.cfg.loose59 = .asN0 ∧ t = s.skipIf (s.reg x == s.reg y)) ∨
      (s.cfg.loose59 = .unknown ∧ t = s.reportUnknown (wordXYN 0x5#4 x y n)) := by
  unfold execLoose5 execSeReg
  split
  next h => simp [h, refuse]
  next h => simp [h, eq_comm]
  next h => simp [h, eq_comm]

theorem execLoose9_next {x y n : Nibble} {s t : State} :
    execLoose9 x y n s = .next t ↔
      (s.cfg.loose59 = .asN0 ∧ t = s.skipIf (s.reg x != s.reg y)) ∨
      (s.cfg.loose59 = .unknown ∧ t = s.reportUnknown (wordXYN 0x9#4 x y n)) := by
  unfold execLoose9 execSneReg
  split
  next h => simp [h, refuse]
  next h => simp [h, eq_comm]
  next h => simp [h, eq_comm]

end Sys2Proof.Machine
end

