-- ==== Sys2Proof/Laws/PerInstr.lean ====
section
/-! SUPPORT. Family RowMatch: the word the encoder gives a well-formed instruction is one its row of
spec/opcode_table.json accepts, mask, match, exclusions and condition (R75, R77, R79). -/

namespace Sys2Proof.Laws.RowMatch

/-- The row's mask and match, as the table writes them. -/
def rowBits : Instr → Word × Word
  | .sys _ => (0xF000#16, 0x0000#16)
  | .cls => (0xFFFF#16, 0x00E0#16)
  | .ret => (0xFFFF#16, 0x00EE#16)
  | .jp _ => (0xF000#16, 0x1000#16)
  | .call _ => (0xF000#16, 0x2000#16)
  | .seImm _ _ => (0xF000#16, 0x3000#16)
  | .sneImm _ _ => (0xF000#16, 0x4000#16)
  | .seReg _ _ => (0xF00F#16, 0x5000#16)
  | .ldImm _ _ => (0xF000#16, 0x6000#16)
  | .addImm _ _ => (0xF000#16, 0x7000#16)
  | .ldReg _ _ => (0xF00F#16, 0x8000#16)
  | .orReg _ _ => (0xF00F#16, 0x8001#16)
  | .andReg _ _ => (0xF00F#16, 0x8002#16)
  | .xorReg _ _ => (0xF00F#16, 0x8003#16)
  | .addReg _ _ => (0xF00F#16, 0x8004#16)
  | .sub _ _ => (0xF00F#16, 0x8005#16)
  | .shr _ _ => (0xF00F#16, 0x8006#16)
  | .subn _ _ => (0xF00F#16, 0x8007#16)
  | .shl _ _ => (0xF00F#16, 0x800E#16)
  | .sneReg _ _ => (0xF00F#16, 0x9000#16)
  | .ldI _ => (0xF000#16, 0xA000#16)
  | .jpV0 _ => (0xF000#16, 0xB000#16)
  | .rnd _ _ => (0xF000#16, 0xC000#16)
  | .drw _ _ _ => (0xF000#16, 0xD000#16)
  | .skp _ => (0xF0FF#16, 0xE09E#16)
  | .sknp _ => (0xF0FF#16, 0xE0A1#16)
  | .ldVxDt _ => (0xF0FF#16, 0xF007#16)
  | .ldVxK _ => (0xF0FF#16, 0xF00A#16)
  | .ldDtVx _ => (0xF0FF#16, 0xF015#16)
  | .ldStVx _ => (0xF0FF#16, 0xF018#16)
  | .addI _ => (0xF0FF#16, 0xF01E#16)
  | .ldF _ => (0xF0FF#16, 0xF029#16)
  | .ldB _ => (0xF0FF#16, 0xF033#16)
  | .ldMemVx _ => (0xF0FF#16, 0xF055#16)
  | .ldVxMem _ => (0xF0FF#16, 0xF065#16)
  | .loose5 _ _ _ => (0xF000#16, 0x5000#16)
  | .loose9 _ _ _ => (0xF000#16, 0x9000#16)

/-- The table's exclusions and conditions on a word: SYS excludes 00E0 and 00EE, the unsettled rows ask for a nonzero
low nibble. -/
def rowCondition : Instr → Word → Prop
  | .sys _, w => w ≠ 0x00E0#16 ∧ w ≠ 0x00EE#16
  | .loose5 _ _ _, w => w &&& 0x000F#16 ≠ 0#16
  | .loose9 _ _ _, w => w &&& 0x000F#16 ≠ 0#16
  | _, _ => True

/-- The row of the instruction accepts the word its encoding is. -/
def Statement (i : Instr) : Prop :=
  i.wellFormed = true →
    encodeWord i &&& (rowBits i).1 = (rowBits i).2 ∧ rowCondition i (encodeWord i)

theorem wordXNN_and_op (op x : Nibble) (nn : Byte) : wordXNN op x nn &&& 0xF000#16 = wordXNN op 0#4 0#8 := by
  apply BitVec.eq_of_getLsbD_eq
  intro i hi
  interval_cases i <;> simp [wordXNN]

theorem wordXNN_and_op_nn (op x : Nibble) (nn : Byte) : wordXNN op x nn &&& 0xF0FF#16 = wordXNN op 0#4 nn := by
  apply BitVec.eq_of_getLsbD_eq
  intro i hi
  interval_cases i <;> simp [wordXNN]

theorem wordXYN_and_op (op x y n : Nibble) : wordXYN op x y n &&& 0xF000#16 = wordXYN op 0#4 0#4 0#4 := by
  apply BitVec.eq_of_getLsbD_eq
  intro i hi
  interval_cases i <;> simp [wordXYN]

theorem wordXYN_and_op_n (op x y n : Nibble) : wordXYN op x y n &&& 0xF00F#16 = wordXYN op 0#4 0#4 n := by
  apply BitVec.eq_of_getLsbD_eq
  intro i hi
  interval_cases i <;> simp [wordXYN]

theorem wordXYN_and_n (op x y n : Nibble) : wordXYN op x y n &&& 0x000F#16 = n.setWidth 16 := by
  apply BitVec.eq_of_getLsbD_eq
  intro i hi
  interval_cases i <;> simp [wordXYN]

theorem wordNNN_and_op (op : Nibble) (nnn : Addr12) : wordNNN op nnn &&& 0xF000#16 = wordNNN op 0#12 := by
  apply BitVec.eq_of_getLsbD_eq
  intro i hi
  interval_cases i <;> simp [wordNNN]

/-- A low nibble other than 0 shows in the word. -/
theorem wordXYN_and_n_ne (op x y : Nibble) {n : Nibble} (h : looseOk n = true) :
    wordXYN op x y n &&& 0x000F#16 ≠ 0#16 := by
  rw [wordXYN_and_n]
  revert h
  revert n
  decide

theorem sys (nnn : Addr12) : Statement (.sys nnn) := fun h => by
  have h' : nnn ≠ 0x0E0#12 ∧ nnn ≠ 0x0EE#12 := by simpa [Instr.wellFormed, sysOk] using h
  refine ⟨(wordNNN_and_op _ nnn).trans rfl, fun e => h'.1 ?_, fun e => h'.2 ?_⟩
  · rw [← nnnField_wordNNN 0x0#4 nnn]; exact congrArg nnnField e
  · rw [← nnnField_wordNNN 0x0#4 nnn]; exact congrArg nnnField e

theorem cls : Statement (.cls) := 
  fun _ => ⟨by decide, trivial⟩

theorem ret : Statement (.ret) := 
  fun _ => ⟨by decide, trivial⟩

theorem jp (nnn : Addr12) : Statement (.jp nnn) := 
  fun _ => ⟨(wordNNN_and_op _ nnn).trans rfl, trivial⟩

theorem call (nnn : Addr12) : Statement (.call nnn) := 
  fun _ => ⟨(wordNNN_and_op _ nnn).trans rfl, trivial⟩

theorem seImm (x : Nibble) (nn : Byte) : Statement (.seImm x nn) := 
  fun _ => ⟨(wordXNN_and_op _ x nn).trans rfl, trivial⟩

theorem sneImm (x : Nibble) (nn : Byte) : Statement (.sneImm x nn) := 
  fun _ => ⟨(wordXNN_and_op _ x nn).trans rfl, trivial⟩

theorem seReg (x y : Nibble) : Statement (.seReg x y) := 
  fun _ => ⟨(wordXYN_and_op_n _ x y _).trans rfl, trivial⟩

theorem ldImm (x : Nibble) (nn : Byte) : Statement (.ldImm x nn) := 
  fun _ => ⟨(wordXNN_and_op _ x nn).trans rfl, trivial⟩

theorem addImm (x : Nibble) (nn : Byte) : Statement (.addImm x nn) := 
  fun _ => ⟨(wordXNN_and_op _ x nn).trans rfl, trivial⟩

theorem ldReg (x y : Nibble) : Statement (.ldReg x y) := 
  fun _ => ⟨(wordXYN_and_op_n _ x y _).trans rfl, trivial⟩

theorem orReg (x y : Nibble) : Statement (.orReg x y) := 
  fun _ => ⟨(wordXYN_and_op_n _ x y _).trans rfl, trivial⟩

theorem andReg (x y : Nibble) : Statement (.andReg x y) := 
  fun _ => ⟨(wordXYN_and_op_n _ x y _).trans rfl, trivial⟩

theorem xorReg (x y : Nibble) : Statement (.xorReg x y) := 
  fun _ => ⟨(wordXYN_and_op_n _ x y _).trans rfl, trivial⟩

theorem addReg (x y : Nibble) : Statement (.addReg x y) := 
  fun _ => ⟨(wordXYN_and_op_n _ x y _).trans rfl, trivial⟩

theorem sub (x y : Nibble) : Statement (.sub x y) := 
  fun _ => ⟨(wordXYN_and_op_n _ x y _).trans rfl, trivial⟩

theorem shr (x y : Nibble) : Statement (.shr x y) := 
  fun _ => ⟨(wordXYN_and_op_n _ x y _).trans rfl, trivial⟩

theorem subn (x y : Nibble) : Statement (.subn x y) := 
  fun _ => ⟨(wordXYN_and_op_n _ x y _).trans rfl, trivial⟩

theorem shl (x y : Nibble) : Statement (.shl x y) := 
  fun _ => ⟨(wordXYN_and_op_n _ x y _).trans rfl, trivial⟩

theorem sneReg (x y : Nibble) : Statement (.sneReg x y) := 
  fun _ => ⟨(wordXYN_and_op_n _ x y _).trans rfl, trivial⟩

theorem ldI (nnn : Addr12) : Statement (.ldI nnn) := 
  fun _ => ⟨(wordNNN_and_op _ nnn).trans rfl, trivial⟩

theorem jpV0 (nnn : Addr12) : Statement (.jpV0 nnn) := 
  fun _ => ⟨(wordNNN_and_op _ nnn).trans rfl, trivial⟩

theorem rnd (x : Nibble) (nn : Byte) : Statement (.rnd x nn) := 
  fun _ => ⟨(wordXNN_and_op _ x nn).trans rfl, trivial⟩

theorem drw (x y n : Nibble) : Statement (.drw x y n) := 
  fun _ => ⟨(wordXYN_and_op _ x y n).trans rfl, trivial⟩

theorem skp (x : Nibble) : Statement (.skp x) := 
  fun _ => ⟨(wordXNN_and_op_nn _ x _).trans rfl, trivial⟩

theorem sknp (x : Nibble) : Statement (.sknp x) := 
  fun _ => ⟨(wordXNN_and_op_nn _ x _).trans rfl, trivial⟩

theorem ldVxDt (x : Nibble) : Statement (.ldVxDt x) := 
  fun _ => ⟨(wordXNN_and_op_nn _ x _).trans rfl, trivial⟩

theorem ldVxK (x : Nibble) : Statement (.ldVxK x) := 
  fun _ => ⟨(wordXNN_and_op_nn _ x _).trans rfl, trivial⟩

theorem ldDtVx (x : Nibble) : Statement (.ldDtVx x) := 
  fun _ => ⟨(wordXNN_and_op_nn _ x _).trans rfl, trivial⟩

theorem ldStVx (x : Nibble) : Statement (.ldStVx x) := 
  fun _ => ⟨(wordXNN_and_op_nn _ x _).trans rfl, trivial⟩

theorem addI (x : Nibble) : Statement (.addI x) := 
  fun _ => ⟨(wordXNN_and_op_nn _ x _).trans rfl, trivial⟩

theorem ldF (x : Nibble) : Statement (.ldF x) := 
  fun _ => ⟨(wordXNN_and_op_nn _ x _).trans rfl, trivial⟩

theorem ldB (x : Nibble) : Statement (.ldB x) := 
  fun _ => ⟨(wordXNN_and_op_nn _ x _).trans rfl, trivial⟩

theorem ldMemVx (x : Nibble) : Statement (.ldMemVx x) := 
  fun _ => ⟨(wordXNN_and_op_nn _ x _).trans rfl, trivial⟩

theorem ldVxMem (x : Nibble) : Statement (.ldVxMem x) := 
  fun _ => ⟨(wordXNN_and_op_nn _ x _).trans rfl, trivial⟩

theorem loose5 (x y n : Nibble) : Statement (.loose5 x y n) := 
  fun h => ⟨(wordXYN_and_op _ x y n).trans rfl, wordXYN_and_n_ne _ x y h⟩

theorem loose9 (x y n : Nibble) : Statement (.loose9 x y n) := 
  fun h => ⟨(wordXYN_and_op _ x y n).trans rfl, wordXYN_and_n_ne _ x y h⟩

end Sys2Proof.Laws.RowMatch
end

