-- ==== Sys2Proof/Laws/Run.lean ====
section
/-! SUPPORT. Unending runs: ticks recur in every one, and some run is fair (70_reset_and_hazards.md R281). -/

namespace Sys2Proof.Machine

/-- No instruction moves the sequencer. -/
theorem exec_phase {i : Instr} {s t : State} (h : exec i s = .next t) : t.phase = s.phase := by
  cases i with
  | call nnn => obtain ⟨-, rfl⟩ := execCall_next.1 h; rfl
  | ret => obtain ⟨l, w, -, rfl⟩ := execRet_next.1 h; rfl
  | skp x => obtain ⟨-, rfl⟩ := execSkp_next.1 h; rw [State.skipIf_eq]; rfl
  | sknp x => obtain ⟨-, rfl⟩ := execSknp_next.1 h; rw [State.skipIf_eq]; rfl
  | seImm x nn => cases h; rw [State.skipIf_eq]; rfl
  | sneImm x nn => cases h; rw [State.skipIf_eq]; rfl
  | seReg x y => cases h; rw [State.skipIf_eq]; rfl
  | sneReg x y => cases h; rw [State.skipIf_eq]; rfl
  | loose5 x y n => obtain ⟨-, rfl⟩ | ⟨-, rfl⟩ := execLoose5_next.1 h <;> simp [State.skipIf_eq, State.reportUnknown]
  | loose9 x y n => obtain ⟨-, rfl⟩ | ⟨-, rfl⟩ := execLoose9_next.1 h <;> simp [State.skipIf_eq, State.reportUnknown]
  | ldVxK x =>
    obtain ⟨-, rfl⟩ | ⟨-, rfl⟩ := execLdVxK_next.1 h
    · rfl
    · unfold State.countKeyDraw; split <;> rfl
  | drw x y n => obtain ⟨d, hit, -, rfl⟩ := execDrw_next.1 h; rfl
  | addI x => obtain ⟨-, rfl⟩ := execAddI_next.1 h; rfl
  | ldF x => obtain ⟨-, rfl⟩ := execLdF_next.1 h; rfl
  | ldB x => rw [(execLdB_next h).2]; rfl
  | ldMemVx x => obtain ⟨m, -, ⟨-, rfl⟩ | ⟨-, rfl⟩⟩ := execLdMemVx_next h <;> rfl
  | ldVxMem x =>
    obtain ⟨s', -, h1, ⟨-, rfl⟩ | ⟨-, rfl⟩⟩ := execLdVxMem_next h
    · rw [h1]
    · rw [State.setIdx_phase, h1]
  | _ => cases h; rfl

/-- The phase that follows each phase. -/
theorem step_phase {s t : State} (h : step s = .next t) :
    s.status = .running ∧
    ((s.phase = .poll ∧ ∃ k, t.phase = .burst k) ∨ (∃ k, s.phase = .burst (k + 1) ∧ t.phase = .burst k) ∨
     (s.phase = .burst 0 ∧ t.phase = .present) ∨ (s.phase = .present ∧ t.phase = .audio) ∨
     (s.phase = .audio ∧ t.phase = .poll)) := by
  obtain ⟨hs, ⟨h1, rfl⟩ | ⟨k, h1, h⟩ | ⟨h1, rfl⟩ | ⟨h1, rfl⟩ | ⟨h1, rfl⟩⟩ := step_next h
  · exact ⟨hs, .inl ⟨h1, _, rfl⟩⟩
  · obtain ⟨-, ⟨i, -, h⟩ | ⟨w, -, rfl⟩⟩ := instrStep_next h
    · exact ⟨hs, .inr (.inl ⟨k, h1, exec_phase h⟩)⟩
    · exact ⟨hs, .inr (.inl ⟨k, h1, rfl⟩)⟩
  · exact ⟨hs, .inr (.inr (.inl ⟨h1, rfl⟩))⟩
  · exact ⟨hs, .inr (.inr (.inr (.inl ⟨h1, rfl⟩)))⟩
  · exact ⟨hs, .inr (.inr (.inr (.inr ⟨h1, rfl⟩)))⟩

/-- A burst of k steps in an unending run ends with a tick. -/
theorem UnendingRun.burst_ticks {r : Nat → State} (hr : UnendingRun r) {n k : Nat} (h : (r n).phase = .burst k) :
    ∃ m, n ≤ m ∧ (r m).ticksNext := by
  induction k generalizing n with
  | zero => exact ⟨n, le_rfl, (step_phase (hr n)).1, h⟩
  | succ k ih =>
    have h1 : (r (n + 1)).phase = .burst k := by
      have := (step_phase (hr n)).2
      simp only [h] at this
      simpa using this
    obtain ⟨m, h2, h3⟩ := ih h1
    exact ⟨m, by omega, h3⟩

/-- A poll in an unending run is followed by a burst, and so by a tick. -/
theorem UnendingRun.poll_ticks {r : Nat → State} (hr : UnendingRun r) {n : Nat} (h : (r n).phase = .poll) :
    ∃ m, n ≤ m ∧ (r m).ticksNext := by
  have h1 : ∃ k, (r (n + 1)).phase = .burst k := by simpa [h] using (step_phase (hr n)).2
  obtain ⟨k, h1⟩ := h1
  obtain ⟨m, h2, h3⟩ := hr.burst_ticks h1
  exact ⟨m, by omega, h3⟩

/-- The audio gate in an unending run is followed by a poll, and so by a tick. -/
theorem UnendingRun.audio_ticks {r : Nat → State} (hr : UnendingRun r) {n : Nat} (h : (r n).phase = .audio) :
    ∃ m, n ≤ m ∧ (r m).ticksNext := by
  obtain ⟨m, h2, h3⟩ := hr.poll_ticks (n := n + 1) (by simpa [h] using (step_phase (hr n)).2)
  exact ⟨m, by omega, h3⟩

/-- In every unending run ticks happen infinitely often. -/
theorem UnendingRun.ticks_recur {r : Nat → State} (hr : UnendingRun r) (n : Nat) :
    ∃ m, n ≤ m ∧ (r m).ticksNext := by
  cases h : (r n).phase with
  | poll => exact hr.poll_ticks h
  | burst k => exact hr.burst_ticks h
  | present =>
    obtain ⟨m, h2, h3⟩ := hr.audio_ticks (n := n + 1) (by simpa [h] using (step_phase (hr n)).2)
    exact ⟨m, by omega, h3⟩
  | audio => exact hr.audio_ticks h

/-- A run is fair exactly when it is unending and, with INSTR_RATE > 0, its instruction steps recur. -/
theorem fairRun_iff {r : Nat → State} :
    FairRun r ↔ UnendingRun r ∧ (0 < (r 0).cfg.instrRate → ∀ n, ∃ m, n ≤ m ∧ (r m).executesNext) :=
  ⟨fun h => ⟨h.1, h.2.2⟩, fun h => ⟨h.1, h.1.ticks_recur, h.2⟩⟩

/-- A running block with INSTR_RATE = 0 outside a burst. -/
def State.idle (s : State) : Prop :=
  s.status = .running ∧ s.cfg.instrRate = 0 ∧ ∀ k, s.phase ≠ .burst (k + 1)

/-- An idle block stays idle. -/
theorem State.idle_step {s : State} (h : s.idle) : ∃ t, step s = .next t ∧ t.idle := by
  obtain ⟨h1, h2, h3⟩ := h
  cases hp : s.phase with
  | poll =>
    refine ⟨s.pollKeys.startBurst, by simp [step, h1, runPhase, hp], ?_⟩
    rw [State.pollKeys_eq]
    simp [State.idle, State.startBurst, State.paceTarget, h1, h2]
  | burst k =>
    cases k with
    | zero => exact ⟨s.tick.setPhase .present, by simp [step, h1, runPhase, hp], h1, h2, by simp⟩
    | succ k => exact absurd hp (h3 k)
  | present =>
    refine ⟨s.present.setPhase .audio, by simp [step, h1, runPhase, hp], ?_⟩
    unfold State.present
    split <;> simp [State.idle, h1, h2]
  | audio =>
    refine ⟨s.driveGate.setPhase .poll, by simp [step, h1, runPhase, hp], ?_⟩
    unfold State.driveGate
    split <;> simp [State.idle, h1, h2]

/-- From an idle block an unending run of idle states starts. -/
theorem State.idle_run {s : State} (h : s.idle) : ∃ r : Nat → State, r 0 = s ∧ UnendingRun r ∧ ∀ n, (r n).idle := by
  have next : ∀ x : { s : State // s.idle }, ∃ y : { s : State // s.idle }, step x.1 = .next y.1 := fun x => by
    obtain ⟨t, ht, hi⟩ := State.idle_step x.2
    exact ⟨⟨t, hi⟩, ht⟩
  choose f hf using next
  refine ⟨fun n => (f^[n] ⟨s, h⟩).1, rfl, fun n => ?_, fun n => (f^[n] ⟨s, h⟩).2⟩
  show step _ = .next (f^[n + 1] ⟨s, h⟩).1
  rw [Function.iterate_succ_apply']
  exact hf _

/-- Some run is fair: the one of an idle block, in which only ticks recur. -/
theorem State.idle_fairRun {s : State} (h : s.idle) : ∃ r, r 0 = s ∧ FairRun r := by
  obtain ⟨r, h0, hr, hi⟩ := State.idle_run h
  exact ⟨r, h0, fairRun_iff.2 ⟨hr, fun hp => by have := (hi 0).2.1; omega⟩⟩

end Sys2Proof.Machine
end

