-- ==== Sys2Proof/Tests/Slice0.lean ====
section
/-! SUPPORT. The model's own tests. Expected results are the vectors of spec/95_test_vectors.md (V<n>, S<n>), the examples
of the instruction rules, or words written out from the opcode map of 30_encoding.md R75; each comment names its source.
Witness theorems show that the hypotheses of the obligations can be met. -/

open Sys2Proof Sys2Proof.Machine Sys2Proof.Claims

namespace Sys2Proof.Tests

-- One theorem after the other: kernel evaluations that wait for one another hold a thread each.
set_option Elab.async false

/-! ### Helpers -/

/-- The next state of an answer. -/
def after : Result → Option State
  | .next s => some s
  | .fault _ => none
  | .refused _ => none

/-- The fault of an answer. -/
def stopped : Result → Option Fault
  | .next _ => none
  | .fault f => some f
  | .refused _ => none

/-- The refusal of an answer. -/
def turnedAway : Result → Option Refusal
  | .next _ => none
  | .fault _ => none
  | .refused r => some r

/-- The answer is a next state that satisfies p. -/
def ends (o : Result) (p : State → Bool) : Bool := (after o).any p

/-- Reset with some general registers set. -/
def regs (l : List (Nibble × Byte)) : State := l.foldl (fun s p => s.setReg p.1 p.2) State.reset

/-- The word w placed at pc and run by one step. -/
def run1 (s : State) (w : Nat) : Result := step (s.withFetchWord 16 w)

/-- s with another configuration. -/
def withCfg (s : State) (c : Config) : State := { s with cfg := c }

/-- s with a set of keys down. -/
def withKeys (s : State) (l : List Nibble) : State :=
  s.setKeys (l.foldl (fun k c => k.set c.toNat true) KeySet.empty)

/-- Q_SHIFT on. -/
def shiftOn : Config := { bootConfig with qShift := true }

/-- Q_JUMP on. -/
def jumpOn : Config := { bootConfig with qJump := true }

/-- Q_MEMIDX on. -/
def memIdxOn : Config := { bootConfig with qMemIdx := true }

/-- STACK_DEPTH = 1. -/
def depthOne : Config := { bootConfig with stackDepth := some 1 }

/-- LOOSE_5_9 at one of its values. -/
def loose (l : Loose59) : Config := { bootConfig with loose59 := l }

/-- KEY_CHOICE the minimum. -/
def lowestKey : Config := { bootConfig with keyChoice := .lowest }

/-! ### WellFormed: each check refuses an ill-formed term -/

-- R77: the words 00E0 and 00EE are CLS and RET.
theorem test_wf_refuses_sys_cls : (Instr.sys 0x0E0#12).wellFormed = false := by decide
theorem test_wf_refuses_sys_ret : (Instr.sys 0x0EE#12).wellFormed = false := by decide
theorem test_wf_accepts_sys : (Instr.sys 0x0E1#12).wellFormed = true := by decide
-- R79: the unsettled rows have a nonzero low nibble.
theorem test_wf_refuses_loose5 : (Instr.loose5 0x1#4 0x2#4 0x0#4).wellFormed = false := by decide
theorem test_wf_refuses_loose9 : (Instr.loose9 0x1#4 0x2#4 0x0#4).wellFormed = false := by decide
theorem test_wf_accepts_loose9 : (Instr.loose9 0x1#4 0x2#4 0xF#4).wellFormed = true := by decide

/-! ### Decode: words written out from R75 -/

theorem test_decode_zero_group :
    decodeWord 0x00E0#16 = .instr .cls ∧ decodeWord 0x00EE#16 = .instr .ret ∧
    decodeWord 0x0000#16 = .instr (.sys 0x000#12) ∧ decodeWord 0x0FFF#16 = .instr (.sys 0xFFF#12) := by decide

theorem test_decode_flow :
    decodeWord 0x1234#16 = .instr (.jp 0x234#12) ∧ decodeWord 0x2300#16 = .instr (.call 0x300#12) ∧
    decodeWord 0xBE00#16 = .instr (.jpV0 0xE00#12) := by decide

theorem test_decode_skips :
    decodeWord 0x3F01#16 = .instr (.seImm 0xF#4 0x01#8) ∧ decodeWord 0x4500#16 = .instr (.sneImm 0x5#4 0x00#8) ∧
    decodeWord 0x5120#16 = .instr (.seReg 0x1#4 0x2#4) ∧ decodeWord 0x9120#16 = .instr (.sneReg 0x1#4 0x2#4) ∧
    decodeWord 0xE09E#16 = .instr (.skp 0x0#4) ∧ decodeWord 0xE7A1#16 = .instr (.sknp 0x7#4) := by decide

theorem test_decode_alu :
    decodeWord 0x6A2B#16 = .instr (.ldImm 0xA#4 0x2B#8) ∧ decodeWord 0x7102#16 = .instr (.addImm 0x1#4 0x02#8) ∧
    decodeWord 0x8120#16 = .instr (.ldReg 0x1#4 0x2#4) ∧ decodeWord 0x8121#16 = .instr (.orReg 0x1#4 0x2#4) ∧
    decodeWord 0x8122#16 = .instr (.andReg 0x1#4 0x2#4) ∧ decodeWord 0x8123#16 = .instr (.xorReg 0x1#4 0x2#4) := by
  decide

theorem test_decode_flagged_alu :
    decodeWord 0x8F14#16 = .instr (.addReg 0xF#4 0x1#4) ∧ decodeWord 0x8125#16 = .instr (.sub 0x1#4 0x2#4) ∧
    decodeWord 0x8126#16 = .instr (.shr 0x1#4 0x2#4) ∧ decodeWord 0x8127#16 = .instr (.subn 0x1#4 0x2#4) ∧
    decodeWord 0x845E#16 = .instr (.shl 0x4#4 0x5#4) := by decide

theorem test_decode_index :
    decodeWord 0xA2F0#16 = .instr (.ldI 0x2F0#12) ∧ decodeWord 0xF21E#16 = .instr (.addI 0x2#4) ∧
    decodeWord 0xF329#16 = .instr (.ldF 0x3#4) ∧ decodeWord 0xF033#16 = .instr (.ldB 0x0#4) ∧
    decodeWord 0xF255#16 = .instr (.ldMemVx 0x2#4) ∧ decodeWord 0xF265#16 = .instr (.ldVxMem 0x2#4) := by decide

theorem test_decode_timers_and_screen :
    decodeWord 0xC30F#16 = .instr (.rnd 0x3#4 0x0F#8) ∧ decodeWord 0xF507#16 = .instr (.ldVxDt 0x5#4) ∧
    decodeWord 0xF30A#16 = .instr (.ldVxK 0x3#4) ∧ decodeWord 0xF515#16 = .instr (.ldDtVx 0x5#4) ∧
    decodeWord 0xF118#16 = .instr (.ldStVx 0x1#4) ∧ decodeWord 0xD015#16 = .instr (.drw 0x0#4 0x1#4 0x5#4) := by decide

-- R79.
theorem test_decode_unsettled :
    decodeWord 0x5121#16 = .instr (.loose5 0x1#4 0x2#4 0x1#4) ∧
    decodeWord 0x912F#16 = .instr (.loose9 0x1#4 0x2#4 0xF#4) := by decide

-- V4 to V6.
theorem test_decode_unknown :
    decodeWord 0x8008#16 = .unknown 0x8008#16 ∧ decodeWord 0x800F#16 = .unknown 0x800F#16 ∧
    decodeWord 0xE000#16 = .unknown 0xE000#16 ∧ decodeWord 0xE09F#16 = .unknown 0xE09F#16 ∧
    decodeWord 0xF000#16 = .unknown 0xF000#16 ∧ decodeWord 0xF0FF#16 = .unknown 0xF0FF#16 ∧
    decodeWord 0xF01F#16 = .unknown 0xF01F#16 := by decide

-- R70: two bytes, no less.
theorem test_decode_truncated : decode [0x12#8] = .truncated := by decide

-- The opcode table's numbering is that of the word: bits 15..8 are its first byte in memory.
theorem test_decodeTableWord : decodeTableWord 16 0x1234 = some (.jp 0x234#12) := by decide
theorem test_encode_bytes : encode (.jp 0x234#12) = [0x12#8, 0x34#8] := by decide

/-! ### Reset and fetch -/

-- R39, R270 with the launch values of 95_test_vectors.md.
theorem test_reset_values : State.reset.pc = 0x200#16 ∧ State.reset.stack = [] ∧ State.reset.status = .running := by
  decide
-- G3: glyph 0 at FONT_BASE; every other byte is 0.
theorem test_reset_font :
    State.reset.byteAt 0x050 = 0xF0#8 ∧ State.reset.byteAt 0x09F = 0x80#8 ∧ State.reset.byteAt 0x0A0 = 0x00#8 ∧
    State.reset.byteAt 0x04F = 0x00#8 := by decide +kernel
theorem test_reset_inv : State.reset.Inv := by
  refine ⟨State.reset_mem_wf, ?_, ?_, ?_⟩ <;> simp [State.stackFits, State.reset, State.construct, bootConfig]
-- P1: the ROM goes to PROGRAM_ORIGIN verbatim.
theorem test_loadRom : ((State.reset.loadRom [0x60#8, 0x00#8, 0x61#8]).byteAt 0x202) = 0x61#8 := by decide +kernel
-- V9.
theorem test_fetch_last_word : ends (run1 (State.reset.setPc 0xFFE#16) 0x6FAA) (·.pc == 0x1000#16) = true := by
  decide +kernel
-- V10.
theorem test_fetch_bounds :
    stopped (step ((State.reset.setPc 0xFFF#16).setPhase (.burst 1))) = some (.fetchBounds 0xFFF#16) := by decide +kernel
-- R231: pc is A after FetchBounds (V10) and A + 2 after an execute-phase fault (A of V14).
theorem test_pcAfter :
    (Fault.fetchBounds 0xFFF#16).pcAfter = 0xFFF#16 ∧ (Fault.stackUnderflow 0x300#16).pcAfter = 0x302#16 := by decide
-- V4: the report, and pc past the word.
theorem test_unknown_reported :
    ends (run1 State.reset 0x8008) (fun t => t.log == [.unknown 0x8008#16 0x200#16] && t.pc == 0x202#16) = true := by
  decide +kernel

/-! ### Flow control -/

-- V3.
theorem test_sys : ends (run1 State.reset 0x00E1) (fun t => t.pc == 0x202#16 && t.log == []) = true := by decide +kernel
-- V11, V19.
theorem test_jp_self : ends (run1 State.reset 0x1200) (fun t => t.pc == 0x200#16 && t.finished) = true := by
  decide +kernel
theorem test_jp_odd : ends (run1 (State.reset.setPc 0x201#16) 0x1203) (·.pc == 0x203#16) = true := by decide +kernel
-- V12, V15 (with STACK_DEPTH = 1).
theorem test_call : ends (run1 State.reset 0x2ABC) (fun t => t.stack == [0x202#16] && t.pc == 0xABC#16) = true := by
  decide +kernel
theorem test_call_overflow :
    stopped (run1 (withCfg ((State.reset.setStack [0x1#16]).setPc 0x400#16) depthOne) 0x2400) =
      some (.stackOverflow 0x400#16) := by decide +kernel
-- V13, V14.
theorem test_ret :
    ends (run1 ((State.reset.setPc 0xABC#16).setStack [0x202#16]) 0x00EE) (fun t => t.stack == [] && t.pc == 0x202#16)
      = true := by decide +kernel
theorem test_ret_underflow :
    stopped (run1 (State.reset.setPc 0x300#16) 0x00EE) = some (.stackUnderflow 0x300#16) := by decide +kernel
-- V16, and the example of R104 for Q_JUMP false.
theorem test_jpV0_quirk :
    ends (run1 (withCfg (regs [(0x0#4, 0xFF#8)]) jumpOn) 0xBFFF) (·.pc == 0x10FE#16) = true := by decide +kernel
theorem test_jpV0_plain :
    ends (run1 (regs [(0x0#4, 0x04#8), (0x2#4, 0x10#8)]) 0xB2F0) (·.pc == 0x300#16) = true := by decide +kernel

/-! ### Skips -/

-- S2.
theorem test_seImm : ends (run1 (regs [(0x3#4, 0x42#8)]) 0x3342) (·.pc == 0x204#16) = true := by decide +kernel
theorem test_seImm_not : ends (run1 (regs [(0x3#4, 0x42#8)]) 0x3343) (·.pc == 0x202#16) = true := by decide +kernel
-- V21, example of R122.
theorem test_sneImm_not : ends (run1 State.reset 0x4500) (·.pc == 0x202#16) = true := by decide +kernel
theorem test_sneImm : ends (run1 (regs [(0x3#4, 0x42#8)]) 0x4300) (·.pc == 0x204#16) = true := by decide +kernel
-- V22, V8, V24.
theorem test_seReg : ends (run1 (regs [(0x1#4, 0x10#8), (0x2#4, 0x10#8)]) 0x5120) (·.pc == 0x204#16) = true := by
  decide +kernel
theorem test_sneReg_equal : ends (run1 (regs [(0x1#4, 0x10#8), (0x2#4, 0x10#8)]) 0x9120) (·.pc == 0x202#16) = true := by
  decide +kernel
-- V25, V27.
theorem test_skp :
    ends (run1 (withKeys (regs [(0x0#4, 0x0F#8)]) [0xF#4]) 0xE09E) (·.pc == 0x204#16) = true := by decide +kernel
theorem test_skp_range :
    stopped (run1 (regs [(0x0#4, 0x10#8)]) 0xE09E) = some (.keyRange 0x10#8 0x200#16) := by decide +kernel
-- V26, and R126 with the key up.
theorem test_sknp :
    ends (run1 (withKeys (regs [(0x0#4, 0x0F#8)]) [0xF#4]) 0xE0A1) (·.pc == 0x202#16) = true := by decide +kernel
theorem test_sknp_up : ends (run1 (regs [(0x0#4, 0x0F#8)]) 0xE0A1) (·.pc == 0x204#16) = true := by decide +kernel
-- V7 under each LOOSE_5_9.
theorem test_loose5_refuse :
    turnedAway (run1 State.reset 0x5121) = some (.unsettled59 0x5121#16 0x200#16) := by decide +kernel
theorem test_loose5_asN0 :
    ends (run1 (withCfg State.reset (loose .asN0)) 0x5121) (·.pc == 0x204#16) = true := by decide +kernel
theorem test_loose9_unknown :
    ends (run1 (withCfg State.reset (loose .unknown)) 0x9121)
      (fun t => t.log == [.unknown 0x9121#16 0x200#16] && t.pc == 0x202#16) = true := by decide +kernel

/-! ### Load and arithmetic -/

-- V29, V30, V31.
theorem test_ldImm : ends (run1 State.reset 0x6FAA) (·.reg 0xF#4 == 0xAA#8) = true := by decide +kernel
theorem test_addImm_no_carry_flag :
    ends (run1 (regs [(0x1#4, 0xFF#8)]) 0x7101) (fun t => t.reg 0x1#4 == 0x00#8 && t.reg 0xF#4 == 0x00#8) = true := by
  decide +kernel
theorem test_addImm_vf : ends (run1 (regs [(0xF#4, 0x05#8)]) 0x7FFF) (·.reg 0xF#4 == 0x04#8) = true := by
  decide +kernel
-- Examples of R143, R145, R146; V33.
theorem test_ldReg : ends (run1 (regs [(0x2#4, 0x99#8)]) 0x8120) (·.reg 0x1#4 == 0x99#8) = true := by decide +kernel
theorem test_orReg :
    ends (run1 (regs [(0x1#4, 0x0F#8), (0x2#4, 0xF0#8), (0xF#4, 0x07#8)]) 0x8121)
      (fun t => t.reg 0x1#4 == 0xFF#8 && t.reg 0xF#4 == 0x07#8) = true := by decide +kernel
theorem test_andReg :
    ends (run1 (regs [(0x1#4, 0xF0#8), (0x2#4, 0x3C#8)]) 0x8122) (·.reg 0x1#4 == 0x30#8) = true := by decide +kernel
theorem test_xorReg :
    ends (run1 (regs [(0x1#4, 0xF0#8), (0x2#4, 0x3C#8)]) 0x8123) (·.reg 0x1#4 == 0xCC#8) = true := by decide +kernel
-- S3, V38.
theorem test_addReg :
    ends (run1 (regs [(0x0#4, 0xFF#8), (0x1#4, 0x01#8)]) 0x8014)
      (fun t => t.reg 0x0#4 == 0x00#8 && t.reg 0xF#4 == 0x01#8) = true := by decide +kernel
theorem test_addReg_flag_last :
    ends (run1 (regs [(0xF#4, 0xFF#8), (0x1#4, 0x01#8)]) 0x8F14) (·.reg 0xF#4 == 0x01#8) = true := by decide +kernel
-- S4, S5.
theorem test_sub_borrow :
    ends (run1 (regs [(0x0#4, 0x05#8), (0x1#4, 0x0A#8)]) 0x8015)
      (fun t => t.reg 0x0#4 == 0xFB#8 && t.reg 0xF#4 == 0x00#8) = true := by decide +kernel
theorem test_sub :
    ends (run1 (regs [(0x0#4, 0x0A#8), (0x1#4, 0x05#8)]) 0x8015)
      (fun t => t.reg 0x0#4 == 0x05#8 && t.reg 0xF#4 == 0x01#8) = true := by decide +kernel
-- V43, V44.
theorem test_subn_borrow :
    ends (run1 (regs [(0x1#4, 0x01#8)]) 0x8127) (fun t => t.reg 0x1#4 == 0xFF#8 && t.reg 0xF#4 == 0x00#8) = true := by
  decide +kernel
theorem test_subn_equal :
    ends (run1 (regs [(0x1#4, 0x01#8), (0x2#4, 0x01#8)]) 0x8127)
      (fun t => t.reg 0x1#4 == 0x00#8 && t.reg 0xF#4 == 0x01#8) = true := by decide +kernel
-- S6 with Q_SHIFT, V46 without.
theorem test_shr_quirk :
    ends (run1 (withCfg (regs [(0x1#4, 0x03#8)]) shiftOn) 0x8016)
      (fun t => t.reg 0x0#4 == 0x01#8 && t.reg 0xF#4 == 0x01#8) = true := by decide +kernel
theorem test_shr_plain :
    ends (run1 (regs [(0x1#4, 0xFE#8), (0x2#4, 0x01#8)]) 0x8126)
      (fun t => t.reg 0x1#4 == 0x7F#8 && t.reg 0xF#4 == 0x00#8) = true := by decide +kernel
-- Example of R151 without Q_SHIFT, V51 with it.
theorem test_shl_plain :
    ends (run1 (regs [(0x4#4, 0x81#8)]) 0x845E) (fun t => t.reg 0x4#4 == 0x02#8 && t.reg 0xF#4 == 0x01#8) = true := by
  decide +kernel
theorem test_shl_quirk_old_vf :
    ends (run1 (withCfg (regs [(0x1#4, 0x55#8), (0xF#4, 0x81#8)]) shiftOn) 0x81FE)
      (fun t => t.reg 0x1#4 == 0x02#8 && t.reg 0xF#4 == 0x01#8) = true := by decide +kernel

/-! ### Index and memory -/

-- V52.
theorem test_ldI : ends (run1 State.reset 0xAFFF) (·.idx == 0x0FFF#16) = true := by decide +kernel
-- V53, V54.
theorem test_addI :
    ends (run1 ((regs [(0x1#4, 0x01#8)]).setIdx 0x0FFF#16) 0xF11E)
      (fun t => t.idx == 0x1000#16 && t.reg 0xF#4 == 0x00#8) = true := by decide +kernel
theorem test_addI_overflow :
    stopped (run1 ((regs [(0x1#4, 0x01#8)]).setIdx 0xFFFF#16) 0xF11E) = some (.indexOverflow 0x10000 0x200#16) := by
  decide +kernel
-- V55, V56.
theorem test_ldF : ends (run1 (regs [(0x1#4, 0x0F#8)]) 0xF129) (·.idx == 0x009B#16) = true := by decide +kernel
theorem test_ldF_range : stopped (run1 (regs [(0x1#4, 0x10#8)]) 0xF129) = some (.fontDigit 0x10#8 0x200#16) := by
  decide +kernel
-- S9, V60.
theorem test_ldB :
    ends (run1 ((regs [(0x0#4, 0xCD#8)]).setIdx 0x300#16) 0xF033)
      (fun t => t.byteAt 0x300 == 2#8 && t.byteAt 0x301 == 0#8 && t.byteAt 0x302 == 5#8 && t.idx == 0x300#16) = true := by
  decide +kernel
theorem test_ldB_bounds :
    stopped (run1 ((regs [(0x1#4, 0x07#8)]).setIdx 0xFFE#16) 0xF133) = some (.memBounds 0x1000 0x200#16) := by
  decide +kernel
-- V61, example of R175 under Q_MEMIDX.
theorem test_ldMemVx_font :
    stopped (run1 (State.reset.setIdx 0x050#16) 0xF055) = some (.fontWrite 0x050 0x200#16) := by decide +kernel
theorem test_ldMemVx :
    ends (run1 (withCfg ((regs [(0x0#4, 0x11#8), (0x1#4, 0x22#8), (0x2#4, 0x33#8)]).setIdx 0x400#16) memIdxOn)
      0xF255) (fun t => t.byteAt 0x402 == 0x33#8 && t.byteAt 0x403 == 0x00#8 && t.idx == 0x403#16) = true := by
  decide +kernel
-- V66, V65.
theorem test_ldVxMem_font :
    ends (run1 (State.reset.setIdx 0x050#16) 0xF465)
      (fun t => t.reg 0x1#4 == 0x90#8 && t.reg 0x4#4 == 0xF0#8 && t.idx == 0x050#16) = true := by decide +kernel
theorem test_ldVxMem_bounds :
    stopped (run1 (State.reset.setIdx 0xFF1#16) 0xFF65) = some (.memBounds 0x1000 0x200#16) := by decide +kernel

/-! ### Random, timers, keys -/

-- V67: mask 0 gives 0, whatever the draw.
theorem test_rnd_mask_zero : ∃ t, exec (.rnd 0x1#4 0x00#8) State.reset = .next t ∧ t.reg 0x1#4 = 0x00#8 :=
  ⟨_, rfl, by simp [State.reg]⟩
-- Examples of R191, R192; V71.
theorem test_ldVxDt : ends (run1 (State.reset.setDt 0x3C#8) 0xF507) (·.reg 0x5#4 == 0x3C#8) = true := by decide +kernel
theorem test_ldDtVx : ends (run1 (regs [(0x5#4, 0x3C#8)]) 0xF515) (·.dt == 0x3C#8) = true := by decide +kernel
theorem test_ldStVx : ends (run1 (regs [(0x2#4, 0x01#8)]) 0xF218) (fun t => t.st == 0x01#8 && t.audioOn) = true := by
  decide +kernel
-- V74, V72.
theorem test_ldVxK_waits :
    ends (run1 (State.reset.setPc 0x220#16) 0xF50A) (fun t => t.pc == 0x220#16 && t.v == State.reset.v) = true := by
  decide +kernel
theorem test_ldVxK_lowest :
    ends (run1 (withCfg (withKeys State.reset [0xA#4, 0x3#4]) lowestKey) 0xF50A)
      (fun t => t.reg 0x5#4 == 0x03#8 && t.pc == 0x202#16) = true := by decide +kernel

/-! ### The display -/

-- V75.
theorem test_cls :
    ends (run1 (State.reset.setDisp (Display.blank.setPixel 3 4 true)) 0x00E0)
      (fun t => !t.disp.pixel 3 4 && t.redraw) = true := by decide +kernel
-- S7: columns 60 to 63 lit, 0 to 3 off.
theorem test_drw_clips :
    ends (run1 (((regs [(0x0#4, 60#8)]).setIdx 0x300#16).placeByte 0x300 0xFF#8) 0xD011)
      (fun t => t.disp.pixel 60 0 && t.disp.pixel 63 0 && !t.disp.pixel 0 0 && !t.disp.pixel 59 0 &&
        t.reg 0xF#4 == 0x00#8) = true := by decide +kernel
-- S8: a lit pixel under a set bit is turned off, and VF is 1; V81: the old VF is the coordinate.
theorem test_drw_collides_at_old_vf :
    ends (run1 ((((regs [(0xF#4, 0x05#8)]).setIdx 0x300#16).placeByte 0x300 0x80#8).setDisp
      (Display.blank.setPixel 5 0 true)) 0xDF01)
      (fun t => !t.disp.pixel 5 0 && t.reg 0xF#4 == 0x01#8 && t.redraw) = true := by decide +kernel
-- V79, V80.
theorem test_drw_bounds :
    stopped (run1 (State.reset.setIdx 0xFFF#16) 0xD012) = some (.memBounds 0x1000 0x200#16) := by decide +kernel
theorem test_drw_clipped_row_not_read :
    ends (run1 ((regs [(0x1#4, 31#8)]).setIdx 0xFFF#16) 0xD012) (·.reg 0xF#4 == 0x00#8) = true := by decide +kernel

/-! ### The sequencer -/

-- V83, V84.
theorem test_tick :
    ends (step (((State.reset.setDt 3#8).setSt 1#8).setPhase (.burst 0))) (fun t => t.dt == 2#8 && t.st == 0#8) = true := by
  decide +kernel
theorem test_tick_holds_zero :
    ends (step (State.reset.setPhase (.burst 0))) (fun t => t.dt == 0#8 && t.st == 0#8) = true := by decide +kernel
-- V85.
theorem test_present_once :
    ends (step ((State.reset.setRedraw true).setPhase .present)) (fun t => t.presents == 1 && !t.redraw) = true := by
  decide +kernel
-- V86: the press is applied, the release stays in the queue.
theorem test_poll_takes_one :
    ends (step (State.reset.setKeyQueue [.press 5, .release 5])) (fun t => t.pressed 0x5#4 && !t.pressed 0x4#4) = true := by
  decide +kernel
-- R256: an unmapped key is ignored.
theorem test_poll_unmapped :
    ends (step (State.reset.setKeyQueue [.press 99])) (fun t => t.keys == KeySet.empty) = true := by decide +kernel
-- R252: the gate follows ST.
theorem test_gate_opens : ends (step ((State.reset.setSt 1#8).setPhase .audio)) (·.gate) = true := by decide +kernel
-- V87.
theorem test_faulted_stays :
    stopped (step (State.reset.setStatus (.faulted (.stackUnderflow 0x300#16)))) = some (.stackUnderflow 0x300#16) := by
  decide +kernel

/-! ### Witnesses: the hypotheses of each obligation can be met, each clause at a boundary value -/

/-- A next state is an answer: the form most witnesses take. -/
theorem next_of_ends {o : Result} {p : State → Bool} (h : ends o p = true) : ∃ t, o = .next t := by
  cases o with
  | next t => exact ⟨t, rfl⟩
  | fault f => cases h
  | refused r => cases h

/-- In a burst with one step to go, pc at the last address a word fits. -/
def lastWord : State := (State.reset.setPc 0xFFE#16).setPhase (.burst 1)

theorem witness_RomLoaderCopiesVerbatim :
    State.reset.cfg.programOrigin.val + (List.replicate 0xE00 (0x01#8 : Byte)).length ≤ 4096 := by
  rw [List.length_replicate]; decide

theorem witness_DecodeReadsBackEveryEncoding : (Instr.drw 0xF#4 0xF#4 0xF#4).wellFormed = true := by decide

theorem witness_EncodeReturnsTheDecodedWord : decodeWord 0xFF65#16 = .instr (.ldVxMem 0xF#4) := by decide

theorem witness_UnknownWordsAreTheListedOnes_unknown :
    IsUnknownWord 0x800F#16 ∧ IsUnknownWord 0xE09F#16 ∧ IsUnknownWord 0xF066#16 := by
  unfold IsUnknownWord; decide

theorem witness_UnknownWordsAreTheListedOnes_known :
    ¬ IsUnknownWord 0x800E#16 ∧ ¬ IsUnknownWord 0xE09E#16 ∧ ¬ IsUnknownWord 0xF065#16 ∧ ¬ IsUnknownWord 0x5121#16 := by
  unfold IsUnknownWord; decide

theorem witness_FetchIsBigEndian : lastWord.pc.toNat + 1 < 4096 := by decide

theorem witness_StepRunsTheDecodedInstruction :
    lastWord.status = .running ∧ lastWord.phase = .burst (0 + 1) ∧ lastWord.pc.toNat + 1 < 4096 ∧
    WordAtPc lastWord 0x0000#16 ∧ decodeWord 0x0000#16 = .instr (.sys 0x000#12) := by
  unfold WordAtPc; decide +kernel

theorem witness_StepRunsTheDecodedInstruction_unknown :
    WordAtPc ((lastWord.placeByte 0xFFE 0x80#8).placeByte 0xFFF 0x08#8) 0x8008#16 ∧ IsUnknownWord 0x8008#16 := by
  unfold WordAtPc IsUnknownWord; decide +kernel

theorem witness_FetchOutsideMemoryFaults :
    lastWord.status = .running ∧ lastWord.phase = .burst (0 + 1) ∧ 4096 ≤ (lastWord.setPc 0xFFF#16).pc.toNat + 1 := by
  decide

theorem witness_JumpsReplacePc :
    (0xFFF ≤ (State.reset.setPc (widen 0xFFF#12)).pc.toNat) ∧
    (0xFFF ≤ (State.reset.setPc (widen 0xFFF#12 + 0xFF#16)).pc.toNat) := by decide

theorem witness_CallPushesTheReturnAddress_room :
    ∀ d, (withCfg State.reset depthOne).cfg.stackDepth = some d → (withCfg State.reset depthOne).stack.length < d := by
  simp [withCfg, depthOne, State.reset, State.construct]

theorem witness_CallPushesTheReturnAddress_full :
    ∀ d, (withCfg State.reset depthOne).cfg.stackDepth = some d →
      d ≤ ((withCfg State.reset depthOne).setStack [0x202#16]).stack.length := by
  simp [withCfg, depthOne, State.setStack]

theorem witness_RetPopsIntoPc :
    (State.reset.setStack [0x202#16]).stack = [] ++ [0x202#16] ∧ State.reset.stack = [] := by decide

theorem witness_ImmediateSkips :
    (regs [(0xF#4, 0xFF#8)]).reg 0xF#4 = 0xFF#8 ∧ (regs [(0xF#4, 0xFF#8)]).reg 0xF#4 ≠ 0xFE#8 := by decide +kernel

theorem witness_RegisterSkipsAndUnsettledWords :
    (withCfg State.reset (loose .asN0)).cfg.loose59 = .asN0 ∧
    (withCfg State.reset (loose .unknown)).cfg.loose59 = .unknown ∧
    (withCfg State.reset (loose .refuse)).cfg.loose59 = .refuse := by decide

theorem witness_KeySkips :
    ((regs [(0x0#4, 0x0F#8)]).reg 0x0#4).toNat = (0xF#4 : Nibble).toNat ∧
    0xF < ((regs [(0x0#4, 0x10#8)]).reg 0x0#4).toNat := by decide +kernel

theorem witness_AddAndSubtractWithFlag :
    (0xFF : Nat) = ((regs [(0x0#4, 0xFF#8), (0x1#4, 0x01#8)]).reg 0x0#4).toNat ∧
    (0x01 : Nat) = ((regs [(0x0#4, 0xFF#8), (0x1#4, 0x01#8)]).reg 0x1#4).toNat := by decide +kernel

theorem witness_ShiftsWithFlag :
    (0x81 : Nat) = (if State.reset.cfg.qShift then (regs [(0x4#4, 0x81#8)]).reg 0x5#4
      else (regs [(0x4#4, 0x81#8)]).reg 0x4#4).toNat := by decide +kernel

theorem witness_IndexAddOrOverflow :
    (0xFFFF : Nat) = ((regs [(0x1#4, 0x01#8)]).setIdx 0xFFFE#16).idx.toNat + ((regs [(0x1#4, 0x01#8)]).reg 0x1#4).toNat ∧
    (0x10000 : Nat) = ((regs [(0x1#4, 0x01#8)]).setIdx 0xFFFF#16).idx.toNat + ((regs [(0x1#4, 0x01#8)]).reg 0x1#4).toNat := by
  decide +kernel

theorem witness_FontAddressOrFault :
    ((regs [(0x1#4, 0x0F#8)]).reg 0x1#4).toNat ≤ 0xF ∧ 0xF < ((regs [(0x1#4, 0x10#8)]).reg 0x1#4).toNat := by
  decide +kernel

-- The last three bytes of memory, and the three just below the font region.
theorem witness_DecimalStore :
    (∀ k < 3, Writable bootConfig ((State.reset.setIdx 0xFFD#16).idx.toNat + k)) ∧
    (∀ k < 3, Writable bootConfig ((State.reset.setIdx 0x04D#16).idx.toNat + k)) := by
  unfold Writable; decide +kernel

-- The third byte outside memory; the third byte the first of the font region.
theorem witness_DecimalStore_fault :
    ((∀ j < 2, Writable bootConfig ((State.reset.setIdx 0xFFE#16).idx.toNat + j)) ∧
      ¬ Writable bootConfig ((State.reset.setIdx 0xFFE#16).idx.toNat + 2)) ∧
    ((∀ j < 2, Writable bootConfig ((State.reset.setIdx 0x04E#16).idx.toNat + j)) ∧
      ¬ Writable bootConfig ((State.reset.setIdx 0x04E#16).idx.toNat + 2)) := by
  unfold Writable; decide +kernel

-- The last sixteen bytes of memory, and the sixteen just above the font region.
theorem witness_BulkStore :
    (∀ k ≤ (0xF#4 : Nibble).toNat, Writable bootConfig ((State.reset.setIdx 0xFF0#16).idx.toNat + k)) ∧
    (∀ k ≤ (0xF#4 : Nibble).toNat, Writable bootConfig ((State.reset.setIdx 0x0A0#16).idx.toNat + k)) := by
  unfold Writable; decide +kernel

-- The last byte outside memory; the only byte the last of the font region.
theorem witness_BulkStore_fault :
    ((∀ j < 15, Writable bootConfig ((State.reset.setIdx 0xFF1#16).idx.toNat + j)) ∧
      ¬ Writable bootConfig ((State.reset.setIdx 0xFF1#16).idx.toNat + 15)) ∧
    ((∀ j < 0, Writable bootConfig ((State.reset.setIdx 0x09F#16).idx.toNat + j)) ∧
      ¬ Writable bootConfig ((State.reset.setIdx 0x09F#16).idx.toNat + 0)) := by
  unfold Writable; decide +kernel

theorem witness_BulkLoad :
    (State.reset.setIdx 0xFF0#16).idx.toNat + (0xF#4 : Nibble).toNat < 4096 ∧
    4096 ≤ (State.reset.setIdx 0xFF1#16).idx.toNat + (0xF#4 : Nibble).toNat := by decide

theorem witness_StoreThenLoadReproducesRegisters :
    ∀ k ≤ (0x3#4 : Nibble).toNat, Writable bootConfig ((State.reset.setIdx 0x400#16).idx.toNat + k) := by
  unfold Writable; decide +kernel

theorem witness_StoreIsSeenByTheNextFetch :
    1 ≤ (0x1#4 : Nibble).toNat ∧ (lastWord.setIdx 0xFFE#16).pc = (lastWord.setIdx 0xFFE#16).idx ∧
    ∀ k ≤ (0x1#4 : Nibble).toNat, Writable bootConfig ((lastWord.setIdx 0xFFE#16).idx.toNat + k) := by
  unfold Writable; decide +kernel

theorem witness_KeyWait :
    (∀ k, State.reset.pressed k = false) ∧ (∃ k, (withKeys State.reset [0xF#4]).pressed k = true) ∧
    (withCfg State.reset lowestKey).cfg.keyChoice = .lowest := by decide +kernel

-- The last byte of memory, the second row clipped.
theorem witness_DrawXorsTheClippedSprite :
    SpriteReadable ((regs [(0x1#4, 31#8)]).setIdx 0xFFF#16) 0x1#4 0x2#4 := by
  unfold SpriteReadable; decide +kernel

-- A lit pixel under a set bit, and one state with no such pixel.
theorem witness_DrawXorsTheClippedSprite_collision :
    SpriteBit ((State.reset.setIdx 0x300#16).placeByte 0x300 0x80#8) 0x0#4 0x1#4 0x1#4 0 0 ∧
    (State.reset.setDisp (Display.blank.setPixel 0 0 true)).disp.pixel 0 0 = true := by
  unfold SpriteBit; decide +kernel

theorem witness_DrawXorsTheClippedSprite_none :
    ¬ ∃ c r, State.reset.disp.pixel c r = true ∧ SpriteBit State.reset 0x0#4 0x1#4 0x1#4 c r := by
  rintro ⟨c, r, h, -⟩
  simp [State.reset, State.construct] at h

-- V79: row 0 at the last byte of memory, row 1 outside it.
theorem witness_DrawXorsTheClippedSprite_fault :
    1 < (0x2#4 : Nibble).toNat ∧ (State.reset.reg 0x1#4).toNat % 32 + 1 < 32 ∧
    4096 ≤ (State.reset.setIdx 0xFFF#16).idx.toNat + 1 ∧
    ∀ j < 1, (State.reset.setIdx 0xFFF#16).idx.toNat + j < 4096 := by decide +kernel

-- Height 15 at the last address it fits.
theorem witness_DrawTwiceRestoresTheDisplay :
    SpriteReadable (State.reset.setIdx 0xFF1#16) 0x1#4 0xF#4 := by
  unfold SpriteReadable; decide +kernel

theorem witness_OtherInstructionsKeepMemory :
    (∀ x, (Instr.ldVxMem 0xF#4) ≠ .ldB x) ∧ (∀ x, (Instr.ldVxMem 0xF#4) ≠ .ldMemVx x) ∧
    ∃ t, exec (.ldVxMem 0xF#4) State.reset = .next t :=
  ⟨by simp, by simp, next_of_ends (p := fun _ => true) (by decide +kernel)⟩

theorem witness_StoresChangeOnlyTheirBytes :
    (∃ t, exec (.ldB 0x0#4) (State.reset.setIdx 0xFFD#16) = .next t) ∧
    (∃ t, exec (.ldMemVx 0xF#4) (State.reset.setIdx 0xFF0#16) = .next t) ∧
    ¬ ((State.reset.setIdx 0xFFD#16).idx.toNat ≤ 0xFFC ∧ 0xFFC < (State.reset.setIdx 0xFFD#16).idx.toNat + 3) :=
  ⟨next_of_ends (p := fun _ => true) (by decide +kernel), next_of_ends (p := fun _ => true) (by decide +kernel), by decide⟩

theorem witness_OtherRegistersAreKept :
    (∃ t, exec (.addReg 0x0#4 0x1#4) State.reset = .next t) ∧ ¬ MayWriteReg (.addReg 0x0#4 0x1#4) 0x1#4 :=
  ⟨⟨_, rfl⟩, by simp [MayWriteReg]⟩

theorem witness_OtherInstructionsKeepIndex :
    (∃ t, exec (.ldVxMem 0x1#4) State.reset = .next t) ∧ ¬ MayWriteIndex State.reset.cfg (.ldVxMem 0x1#4) :=
  ⟨next_of_ends (p := fun _ => true) (by decide +kernel), by simp [MayWriteIndex, State.reset, State.construct, bootConfig]⟩

theorem witness_OtherInstructionsKeepPc :
    (∃ t, exec .cls State.reset = .next t) ∧ ¬ MayWritePc .cls := ⟨⟨_, rfl⟩, by simp [MayWritePc]⟩

theorem witness_StackDisplayAndTimersFrame :
    (∃ t, exec (.ldVxDt 0x0#4) State.reset = .next t) ∧
    (∀ nnn, (Instr.ldVxDt 0x0#4) ≠ .call nnn) ∧ (Instr.ldVxDt 0x0#4) ≠ .ret ∧ (Instr.ldVxDt 0x0#4) ≠ .cls ∧
    (∀ x y n, (Instr.ldVxDt 0x0#4) ≠ .drw x y n) ∧ (∀ x, (Instr.ldVxDt 0x0#4) ≠ .ldDtVx x) ∧
    (∀ x, (Instr.ldVxDt 0x0#4) ≠ .ldStVx x) := ⟨⟨_, rfl⟩, by simp⟩

theorem witness_InstructionsKeepTheOtherAgentsState :
    (∃ t, exec (.ldDtVx 0x0#4) State.reset = .next t) ∧ (∀ x y n, (Instr.ldDtVx 0x0#4) ≠ .loose5 x y n) ∧
    (∀ x y n, (Instr.ldDtVx 0x0#4) ≠ .loose9 x y n) := ⟨⟨_, rfl⟩, by simp⟩

-- TickDecrementsBothTimers and IterationEndsWithOneTick.
theorem witness_tick :
    (State.reset.setPhase (.burst 0)).status = .running ∧ (State.reset.setPhase (.burst 0)).phase = .burst 0 := by decide

theorem witness_PresentOncePerRequest :
    ((State.reset.setRedraw true).setPhase .present).status = .running ∧
    ((State.reset.setRedraw true).setPhase .present).phase = .present ∧
    ((State.reset.setRedraw true).setPhase .present).redraw = true ∧
    (State.reset.setPhase .present).redraw = false := by decide

theorem witness_DeviceFailuresAreOnlyLogged :
    (∃ fails, fails = Config.freeDeviceFails (State.reset.setPhase .present).draws) ∧
    (∃ fails, fails = Config.freeDeviceFails (State.reset.setPhase .audio).draws) ∧
    (State.reset.setPhase .present).phase = .present ∧ (State.reset.setPhase .audio).phase = .audio ∧
    (State.reset.setPhase .present).status = .running ∧ (State.reset.setPhase .audio).status = .running :=
  ⟨⟨_, rfl⟩, ⟨_, rfl⟩, by decide⟩

-- KeysChangeByNotificationsOnly and QueueIsDrainedInOrder: a mapped press and release, an unmapped one.
theorem witness_poll :
    State.reset.status = .running ∧ State.reset.phase = .poll ∧
    keyCodeOf State.reset.cfg 15 = some 0xF#4 ∧ keyCodeOf State.reset.cfg 16 = none ∧
    (State.reset.setKeyQueue [.press 15, .release 15]).keyQueue ++ [] = .press 15 :: [.release 15] := by decide +kernel

theorem witness_KeysChangeByNotificationsOnly :
    (∃ t, exec (.skp 0x0#4) State.reset = .next t) ∧ (State.reset.setPhase (.burst 0)).phase ≠ .poll ∧
    ∃ t, step (State.reset.setPhase (.burst 0)) = .next t :=
  ⟨next_of_ends (p := fun _ => true) (by decide +kernel), by decide, ⟨_, rfl⟩⟩

theorem witness_InstructionStepsUseUpTheBurst :
    lastWord.phase = .burst (0 + 1) ∧ (∃ t, step (lastWord.setRedraw true) = .next t) ∧
    (lastWord.setRedraw true).redraw = true ∧ WordAtPc (lastWord.setRedraw true) 0x0000#16 ∧
    (∀ x, decodeWord 0x0000#16 ≠ .instr (.ldDtVx x)) ∧ ∀ x, decodeWord 0x0000#16 ≠ .instr (.ldStVx x) :=
  ⟨rfl, next_of_ends (p := fun _ => true) (by decide +kernel), rfl, by unfold WordAtPc; decide +kernel, by decide,
    by decide⟩

theorem witness_NoInstructionAtRateZero :
    (withCfg State.reset { bootConfig with instrRate := 0 }).cfg.instrRate = 0 ∧
    (∀ k, (withCfg State.reset { bootConfig with instrRate := 0 }).phase ≠ .burst (k + 1)) ∧
    ∃ t, step (withCfg State.reset { bootConfig with instrRate := 0 }) = .next t :=
  ⟨rfl, fun _ h => (by cases h), ⟨_, rfl⟩⟩

theorem witness_FaultsHaveTheirListedCauses :
    stopped (exec (.drw 0x0#4 0x1#4 0x1#4) (State.reset.setIdx 0x1000#16)) = some (.memBounds 0x1000 0x1FE#16) ∧
    stopped (exec .ret State.reset) = some (.stackUnderflow 0x1FE#16) ∧
    stopped (exec (.call 0x000#12) ((withCfg State.reset depthOne).setStack [0x0#16])) = some (.stackOverflow 0x1FE#16) ∧
    stopped (exec (.addI 0x1#4) ((regs [(0x1#4, 0x01#8)]).setIdx 0xFFFF#16)) = some (.indexOverflow 0x10000 0x1FE#16) ∧
    stopped (exec (.sknp 0x1#4) (regs [(0x1#4, 0x10#8)])) = some (.keyRange 0x10#8 0x1FE#16) ∧
    stopped (exec (.ldF 0x1#4) (regs [(0x1#4, 0x10#8)])) = some (.fontDigit 0x10#8 0x1FE#16) ∧
    stopped (exec (.ldB 0x1#4) (State.reset.setIdx 0x09F#16)) = some (.fontWrite 0x09F 0x1FE#16) ∧
    turnedAway (exec (.loose9 0x0#4 0x0#4 0x1#4) State.reset) = some (.unsettled59 0x9001#16 0x1FE#16) := by
  decide +kernel

theorem witness_OnlyInstructionStepsStop :
    State.reset.status = .running ∧ ∀ k, State.reset.phase ≠ .burst (k + 1) := ⟨rfl, fun _ h => by cases h⟩

theorem witness_StoppedBlockStaysStopped :
    (State.reset.setStatus (.faulted (.fetchBounds 0xFFF#16))).status = .faulted (.fetchBounds 0xFFF#16) ∧
    (State.reset.setStatus (.refused (.unsettled59 0x5121#16 0x200#16))).status =
      .refused (.unsettled59 0x5121#16 0x200#16) := by decide

-- A fault while executing at the last address a word fits, and a fault at the first address none does.
theorem witness_StoppedBlockStaysStopped_pc :
    stopped (exec .ret State.reset) = some (.stackUnderflow 0x1FE#16) ∧ lastWord.status = .running ∧
    lastWord.phase = .burst (0 + 1) ∧
    stopped (step ((lastWord.placeByte 0xFFE 0x00#8).placeByte 0xFFF 0xEE#8)) = some (.stackUnderflow 0xFFE#16) ∧
    stopped (step (lastWord.setPc 0xFFF#16)) = some (.fetchBounds 0xFFF#16) := by decide +kernel

-- ConfigurationIsImmutable, MemoryStaysCanonical, StackNeverExceedsItsDepth and PcStaysInRange: reset meets the
-- invariants (test_reset_inv) and steps.
theorem witness_invariants : State.reset.Inv ∧ ∃ t, step State.reset = .next t := ⟨test_reset_inv, ⟨_, rfl⟩⟩

theorem witness_CanonicalMemoriesThatReadAlikeAreEqual :
    Memory.wf bootConfig [(0x300, 0x01#8)] ∧
    ∀ a < 4096, Memory.read bootConfig [(0x300, 0x01#8)] a = Memory.read bootConfig [(0x300, 0x01#8)] a :=
  ⟨by decide +kernel, fun _ _ => rfl⟩

theorem witness_OnlyDrawReadsTheDisplay :
    (∀ x y n, Instr.cls ≠ .drw x y n) ∧ ∃ t, exec .cls State.reset = .next t := ⟨by simp, ⟨_, rfl⟩⟩

-- R281: a fair run exists.
theorem witness_FairRun : ∃ r, r 0 = withCfg State.reset { bootConfig with instrRate := 0 } ∧ FairRun r :=
  State.idle_fairRun ⟨rfl, rfl, fun _ h => by cases h⟩

end Sys2Proof.Tests
end

section
/-! The fields of a word as numbers (30_encoding.md R71): each field is the word divided by the weight of its lowest
bit, reduced to its width. -/

namespace Sys2Proof

theorem toNat_opField (w : Word) : (opField w).toNat = w.toNat / 4096 := by
  have hw : w.toNat < 65536 := w.isLt
  rw [opField, BitVec.extractLsb'_toNat, Nat.shiftRight_eq_div_pow]
  omega

theorem toNat_xField (w : Word) : (xField w).toNat = w.toNat / 256 % 16 := by
  rw [xField, BitVec.extractLsb'_toNat, Nat.shiftRight_eq_div_pow]

theorem toNat_yField (w : Word) : (yField w).toNat = w.toNat / 16 % 16 := by
  rw [yField, BitVec.extractLsb'_toNat, Nat.shiftRight_eq_div_pow]

theorem toNat_nField (w : Word) : (nField w).toNat = w.toNat % 16 := by
  rw [nField, BitVec.extractLsb'_toNat, Nat.shiftRight_zero]

theorem toNat_nnField (w : Word) : (nnField w).toNat = w.toNat % 256 := by
  rw [nnField, BitVec.extractLsb'_toNat, Nat.shiftRight_zero]

theorem toNat_nnnField (w : Word) : (nnnField w).toNat = w.toNat % 4096 := by
  rw [nnnField, BitVec.extractLsb'_toNat, Nat.shiftRight_zero]

/-- The first overlap R71 names, `nnn = (x << 8) | nn`. -/
theorem toNat_nnnField_eq_xField_nnField (w : Word) :
    (nnnField w).toNat = (xField w).toNat * 256 + (nnField w).toNat := by
  rw [toNat_nnnField, toNat_xField, toNat_nnField]
  omega

/-- The second overlap R71 names, `nn = (y << 4) | n`. -/
theorem toNat_nnField_eq_yField_nField (w : Word) :
    (nnField w).toNat = (yField w).toNat * 16 + (nField w).toNat := by
  rw [toNat_nnField, toNat_yField, toNat_nField]
  omega

/-- Settles O3: one value lemma per field and one lemma per overlap of R71. -/
theorem fieldsAreTheListedBits : Obligations.FieldsAreTheListedBits := fun w =>
  ⟨toNat_opField w, toNat_xField w, toNat_yField w, toNat_nField w, toNat_nnField w, toNat_nnnField w,
    toNat_nnnField_eq_xField_nnField w, toNat_nnField_eq_yField_nField w⟩

end Sys2Proof
end

section
/-! The conditional skips (42_skip.md R120 to R122): what a skip makes of the state in each case, and the two skips that
compare a register with an immediate. -/

namespace Sys2Proof.Machine

/-- R120, the condition holds: only pc changes, by the 2 of the skipped word. -/
theorem State.skipIf_of_true {c : Bool} (s : State) (h : c = true) : s.skipIf c = { s with pc := s.pc + 2#16 } := by
  rw [State.skipIf_eq, if_pos h]; rfl

/-- R120, the condition fails: nothing changes. -/
theorem State.skipIf_of_false {c : Bool} (s : State) (h : c = false) : s.skipIf c = s := by
  rw [State.skipIf_eq, h]; rfl

theorem exec_seImm (x : Nibble) (nn : Byte) (s : State) :
    exec (.seImm x nn) s = .next (s.skipIf (s.reg x == nn)) := rfl

theorem exec_sneImm (x : Nibble) (nn : Byte) (s : State) :
    exec (.sneImm x nn) s = .next (s.skipIf (s.reg x != nn)) := rfl

/-- Settles O15: the two instructions test opposite conditions, so exactly one of them skips. -/
theorem immediateSkips : Obligations.ImmediateSkips := by
  intro x nn s
  rw [exec_seImm, exec_sneImm]
  constructor
  · intro heq
    rw [s.skipIf_of_true (beq_iff_eq.2 heq), s.skipIf_of_false (bne_eq_false_iff_eq.2 heq)]
    exact ⟨rfl, rfl⟩
  · intro hne
    rw [s.skipIf_of_false (beq_eq_false_iff_ne.2 hne), s.skipIf_of_true (bne_iff_ne.2 hne)]
    exact ⟨rfl, rfl⟩

end Sys2Proof.Machine
end

section
/-! The register operations without a flag (43_alu.md R141 to R146): each writes V[x] through one `State.setReg`, so VF
changes only as the destination x = F. -/

namespace Sys2Proof.Machine

theorem exec_ldImm (x : Nibble) (nn : Byte) (s : State) : exec (.ldImm x nn) s = .next (s.setReg x nn) := rfl

theorem exec_addImm (x : Nibble) (nn : Byte) (s : State) :
    exec (.addImm x nn) s = .next (s.setReg x (s.reg x + nn)) := rfl

theorem exec_ldReg (x y : Nibble) (s : State) : exec (.ldReg x y) s = .next (s.setReg x (s.reg y)) := rfl

theorem exec_orReg (x y : Nibble) (s : State) : exec (.orReg x y) s = .next (s.setReg x (s.reg x ||| s.reg y)) := rfl

theorem exec_andReg (x y : Nibble) (s : State) : exec (.andReg x y) s = .next (s.setReg x (s.reg x &&& s.reg y)) := rfl

theorem exec_xorReg (x y : Nibble) (s : State) : exec (.xorReg x y) s = .next (s.setReg x (s.reg x ^^^ s.reg y)) := rfl

/-- R152: addition of bytes is addition of numbers mod 256. -/
theorem byte_add_eq_ofNat_mod (a b : Byte) : a + b = BitVec.ofNat 8 ((a.toNat + b.toNat) % 256) := by
  rw [← BitVec.toNat_add, BitVec.ofNat_toNat, BitVec.setWidth_eq]

/-- Settles O18: each operation is one `State.setReg`, and the number R142 writes is the byte sum. -/
theorem unflaggedOperationsWriteVxOnly : Obligations.UnflaggedOperationsWriteVxOnly := by
  intro x y nn s
  rw [← byte_add_eq_ofNat_mod]
  exact ⟨exec_ldImm x nn s, exec_addImm x nn s, exec_ldReg x y s, exec_orReg x y s, exec_andReg x y s,
    exec_xorReg x y s⟩

end Sys2Proof.Machine
end

section
/-! The index register and the bulk load (44_index_memory.md R170, R176). A load reads only below 4096, so its advance
of I ends at 4096 at most and cannot overflow: the fault of the read loop is the only one. -/

namespace Sys2Proof.Machine

open Sys2Proof.Claims

theorem exec_ldI (nnn : Addr12) (s : State) : exec (.ldI nnn) s = .next (s.setIdx (widen nnn)) := rfl

theorem exec_ldVxMem (x : Nibble) (s : State) : exec (.ldVxMem x) s = execLdVxMem x s := rfl

theorem toNat_widen (nnn : Addr12) : (widen nnn).toNat = nnn.toNat :=
  BitVec.toNat_setWidth_of_le (by decide)

/-- Settles O21: a 12-bit value keeps its number when I takes it. -/
theorem loadIndexWritesNnn : Obligations.LoadIndexWritesNnn := fun nnn s =>
  ⟨s.setIdx (widen nnn), exec_ldI nnn s, rfl, toNat_widen nnn⟩

/-- The advance of I under Q_MEMIDX does not overflow after a transfer that ends inside memory (R171, R176). -/
theorem State.advanceIndex_inside {s : State} {x : Nibble} (h : s.idx.toNat + x.toNat < 4096) :
    s.advanceIndex x = .ok (s.setIdx (indexAfter s x)) := by
  rw [State.advanceIndex_ok, indexAfter]
  cases s.cfg.qMemIdx with
  | false => exact .inl ⟨rfl, rfl⟩
  | true => exact .inr ⟨rfl, by omega, rfl⟩

/-- A bulk load inside memory completes: the read loop does, and then the advance of I does. -/
theorem execLdVxMem_inside {x : Nibble} {s : State} (h : s.idx.toNat + x.toNat < 4096) :
    ∃ s', s.loadRegs 0 s.idx.toNat (x.toNat + 1) = .ok s' ∧
      execLdVxMem x s = .next (s'.setIdx (indexAfter s x)) := by
  obtain ⟨s', hload⟩ := State.loadRegs_completes (s := s) (i := 0) (show s.idx.toNat + (x.toNat + 1) ≤ 4096 by omega)
  have hv : s' = { s with v := s'.v } := (State.loadRegs_ok (by omega) hload).1
  have hidx : s'.idx = s.idx := by rw [hv]
  have hafter : indexAfter s' x = indexAfter s x := by rw [hv]; rfl
  have hadv := State.advanceIndex_inside (s := s') (x := x) (by rwa [hidx])
  refine ⟨s', hload, ?_⟩
  rw [execLdVxMem, hload, ← hafter]
  exact finish_next.2 hadv

/-- A bulk load that reaches past memory stops at the first address outside it, I itself when I is outside. -/
theorem execLdVxMem_outside {x : Nibble} {s : State} (h : 4096 ≤ s.idx.toNat + x.toNat) :
    execLdVxMem x s = .fault (.memBounds (max s.idx.toNat 4096) s.instrAddr) := by
  rw [execLdVxMem]
  cases hload : s.loadRegs 0 s.idx.toNat (x.toNat + 1) with
  | ok s' =>
    have := State.loadRegs_ok_inside (Nat.succ_pos _) hload
    omega
  | error f => rw [(State.loadRegs_error hload).2]; rfl

/-- Settles O26: the two clauses are the load inside memory and the load past its end. -/
theorem bulkLoad : Obligations.BulkLoad := by
  intro x s
  have hx : x.toNat < 16 := x.isLt
  rw [exec_ldVxMem]
  constructor
  · intro hin
    obtain ⟨s', hload, hnext⟩ := execLdVxMem_inside hin
    obtain ⟨hv, hregs⟩ := State.loadRegs_ok (by omega) hload
    refine ⟨s'.setIdx (indexAfter s x), hnext, by rw [hv]; rfl, fun y => ?_⟩
    have hloaded : (0 ≤ y.toNat ∧ y.toNat < 0 + (x.toNat + 1)) ↔ y.toNat ≤ x.toNat := by omega
    have hy := hregs y
    rwa [if_congr hloaded rfl rfl, Nat.sub_zero] at hy
  · exact execLdVxMem_outside

end Sys2Proof.Machine
end

section
/-! The decoder and the encoder are inverse (30_encoding.md R70 to R79): encoding first, a composed word gives its
fields back to the decoder; decoding first, each group of the opcode map keeps the fields its word is composed of. -/

namespace Sys2Proof

/-- Decoding an instruction's bytes in memory order is decoding its word (R55). -/
theorem decode_encode_eq_decodeWord (i : Instr) : decode (encode i) = decodeWord (encodeWord i) := by
  rw [encode, decode_pair, wordOfBytes_bytes]

/-- The word of SYS is neither of the two words R77 takes out of its row, so the decoder reads SYS back. -/
theorem decodeWord_encodeWord_sys {nnn : Addr12} (h : (Instr.sys nnn).wellFormed = true) :
    decodeWord (encodeWord (.sys nnn)) = .instr (.sys nnn) := by
  obtain ⟨hcls, hret⟩ := (Laws.RowMatch.sys nnn h).2
  rw [encodeWord] at *
  simp [decodeWord, decode0, hcls, hret]

theorem decodeWord_encodeWord {i : Instr} (h : i.wellFormed = true) : decodeWord (encodeWord i) = .instr i := by
  cases i with
  | sys nnn => exact decodeWord_encodeWord_sys h
  | cls => decide
  | ret => decide
  | loose5 x y n =>
    have hn : n ≠ 0#4 := by simpa [Instr.wellFormed, looseOk] using h
    simp [encodeWord, decodeWord, hn]
  | loose9 x y n =>
    have hn : n ≠ 0#4 := by simpa [Instr.wellFormed, looseOk] using h
    simp [encodeWord, decodeWord, hn]
  | ldReg x y | orReg x y | andReg x y | xorReg x y | addReg x y | sub x y | shr x y | subn x y | shl x y =>
    simp [encodeWord, decodeWord, decode8]
  | skp x | sknp x => simp [encodeWord, decodeWord, decodeE]
  | ldVxDt x | ldVxK x | ldDtVx x | ldStVx x | addI x | ldF x | ldB x | ldMemVx x | ldVxMem x =>
    simp [encodeWord, decodeWord, decodeF]
  | _ => simp [encodeWord, decodeWord]

/-- Settles O4: the bytes are the word's, and the decoder reads back the fields of a composed word. -/
theorem decodeReadsBackEveryEncoding : Obligations.DecodeReadsBackEveryEncoding := fun i h =>
  (decode_encode_eq_decodeWord i).trans (decodeWord_encodeWord h)

/-! ### A decoded word is the encoding of what it decodes to -/

theorem wordXNN_eq {w : Word} {op : Nibble} {nn : Byte} (hop : opField w = op) (hnn : nnField w = nn) :
    wordXNN op (xField w) nn = w := by
  rw [← hop, ← hnn, wordXNN_fields]

theorem wordXYN_eq {w : Word} {op n : Nibble} (hop : opField w = op) (hn : nField w = n) :
    wordXYN op (xField w) (yField w) n = w := by
  rw [← hop, ← hn, wordXYN_fields]

theorem wordNNN_eq {w : Word} {op : Nibble} (hop : opField w = op) : wordNNN op (nnnField w) = w := by
  rw [← hop, wordNNN_fields]

/-- A word with op 0 that is not 00E0 or 00EE has an nnn other than 0E0 and 0EE (R77). -/
theorem sysOk_nnnField {w : Word} (hop : opField w = 0x0#4) (hcls : w ≠ 0x00E0#16) (hret : w ≠ 0x00EE#16) :
    sysOk (nnnField w) = true := by
  have hw := wordNNN_eq hop
  simp only [sysOk, Bool.and_eq_true, bne_iff_ne]
  constructor
  · intro e
    exact hcls (by rw [← hw, e]; rfl)
  · intro e
    exact hret (by rw [← hw, e]; rfl)

/-- The answer d on the word w is an instruction that w is the encoding of. -/
def DecodesBack (w : Word) (d : Decoded) : Prop := ∃ i, d = .instr i ∧ i.wellFormed = true ∧ encodeWord i = w

theorem decodesBack_ite {w : Word} {c : Prop} [Decidable c] {d e : Decoded} (hd : c → DecodesBack w d)
    (he : ¬ c → DecodesBack w e) : DecodesBack w (if c then d else e) := by
  split
  · exact hd ‹c›
  · exact he ‹¬ c›

theorem decodesBack_xnn {w : Word} {op : Nibble} {nn : Byte} {i : Instr} (hop : opField w = op)
    (hnn : nnField w = nn) (hi : encodeWord i = wordXNN op (xField w) nn) (hwf : i.wellFormed = true) :
    DecodesBack w (.instr i) :=
  ⟨i, rfl, hwf, hi.trans (wordXNN_eq hop hnn)⟩

theorem decodesBack_xyn {w : Word} {op n : Nibble} {i : Instr} (hop : opField w = op) (hn : nField w = n)
    (hi : encodeWord i = wordXYN op (xField w) (yField w) n) (hwf : i.wellFormed = true) :
    DecodesBack w (.instr i) :=
  ⟨i, rfl, hwf, hi.trans (wordXYN_eq hop hn)⟩

theorem decodesBack_nnn {w : Word} {op : Nibble} {i : Instr} (hop : opField w = op)
    (hi : encodeWord i = wordNNN op (nnnField w)) (hwf : i.wellFormed = true) : DecodesBack w (.instr i) :=
  ⟨i, rfl, hwf, hi.trans (wordNNN_eq hop)⟩

theorem decode0_decodesBack {w : Word} (hop : opField w = 0x0#4) : DecodesBack w (decode0 w) :=
  decodesBack_ite (fun hcls => ⟨.cls, rfl, rfl, hcls.symm⟩) fun hcls =>
  decodesBack_ite (fun hret => ⟨.ret, rfl, rfl, hret.symm⟩) fun hret =>
  decodesBack_nnn hop rfl (sysOk_nnnField hop hcls hret)

/-- The answer d on the word w is an instruction that w is the encoding of, or, exactly if u holds, unknown. -/
def DecodesUnless (u : Prop) (w : Word) (d : Decoded) : Prop := (DecodesBack w d ∧ ¬ u) ∨ (d = .unknown w ∧ u)

/-- One row of a group: the sub-opcode k is known and its word decodes back, and the rows after it decide the rest. -/
theorem decodesUnless_row {w : Word} {u : Prop} {m : Nat} {sub k : BitVec m} {i : Instr} {e : Decoded}
    (hback : sub = k → DecodesBack w (.instr i)) (hknown : sub = k → ¬ u) (hrest : sub ≠ k → DecodesUnless u w e) :
    DecodesUnless u w (if sub = k then .instr i else e) :=
  iteInduction (fun h => .inl ⟨hback h, hknown h⟩) hrest

/-- R78: the sub-opcodes of group 8 without an instruction are 8 to D and F. -/
theorem decode8_cases {w : Word} (hop : opField w = 0x8#4) :
    DecodesUnless ((nField w).toNat ∈ [0x8, 0x9, 0xA, 0xB, 0xC, 0xD, 0xF]) w (decode8 w) := by
  unfold decode8
  iterate 9 refine decodesUnless_row (decodesBack_xyn hop · rfl rfl) (fun hn => by simp [hn]) fun hn => ?_
  refine .inr ⟨rfl, ?_⟩
  simp only [List.mem_cons, List.not_mem_nil, or_false]
  bv_omega

/-- R78: the sub-opcodes of group E with an instruction are 9E and A1. -/
theorem decodeE_cases {w : Word} (hop : opField w = 0xE#4) :
    DecodesUnless ((nnField w).toNat ∉ [0x9E, 0xA1]) w (decodeE w) := by
  unfold decodeE
  iterate 2 refine decodesUnless_row (decodesBack_xnn hop · rfl rfl) (fun hnn => by simp [hnn]) fun hnn => ?_
  refine .inr ⟨rfl, ?_⟩
  simp only [List.mem_cons, List.not_mem_nil, or_false]
  bv_omega

/-- R78: the sub-opcodes of group F with an instruction are the nine listed. -/
theorem decodeF_cases {w : Word} (hop : opField w = 0xF#4) :
    DecodesUnless ((nnField w).toNat ∉ [0x07, 0x0A, 0x15, 0x18, 0x1E, 0x29, 0x33, 0x55, 0x65]) w (decodeF w) := by
  unfold decodeF
  iterate 9 refine decodesUnless_row (decodesBack_xnn hop · rfl rfl) (fun hnn => by simp [hnn]) fun hnn => ?_
  refine .inr ⟨rfl, ?_⟩
  simp only [List.mem_cons, List.not_mem_nil, or_false]
  bv_omega

/-- Outside the groups 8, E and F every word is an instruction. -/
theorem decodeWord_decodesBack {w : Word} (h8 : opField w ≠ 0x8#4) (hE : opField w ≠ 0xE#4) (hF : opField w ≠ 0xF#4) :
    DecodesBack w (decodeWord w) :=
  decodesBack_ite decode0_decodesBack fun h0 =>
  decodesBack_ite (fun h => decodesBack_nnn h rfl rfl) fun h1 =>
  decodesBack_ite (fun h => decodesBack_nnn h rfl rfl) fun h2 =>
  decodesBack_ite (fun h => decodesBack_xnn h rfl rfl rfl) fun h3 =>
  decodesBack_ite (fun h => decodesBack_xnn h rfl rfl rfl) fun h4 =>
  decodesBack_ite (fun h => decodesBack_ite (fun hn => decodesBack_xyn h hn rfl rfl) fun hn =>
    decodesBack_xyn h rfl rfl (bne_iff_ne.2 hn)) fun h5 =>
  decodesBack_ite (fun h => decodesBack_xnn h rfl rfl rfl) fun h6 =>
  decodesBack_ite (fun h => decodesBack_xnn h rfl rfl rfl) fun h7 =>
  decodesBack_ite (fun h => absurd h h8) fun _ =>
  decodesBack_ite (fun h => decodesBack_ite (fun hn => decodesBack_xyn h hn rfl rfl) fun hn =>
    decodesBack_xyn h rfl rfl (bne_iff_ne.2 hn)) fun h9 =>
  decodesBack_ite (fun h => decodesBack_nnn h rfl rfl) fun hA =>
  decodesBack_ite (fun h => decodesBack_nnn h rfl rfl) fun hB =>
  decodesBack_ite (fun h => decodesBack_xnn h rfl rfl rfl) fun hC =>
  decodesBack_ite (fun h => decodesBack_xyn h rfl rfl rfl) fun hD =>
  decodesBack_ite (fun h => absurd h hE) fun _ =>
  absurd (by bv_omega) hF

theorem decodeWord_group8 {w : Word} (hop : opField w = 0x8#4) : decodeWord w = decode8 w := by
  simp [decodeWord, hop]

theorem decodeWord_groupE {w : Word} (hop : opField w = 0xE#4) : decodeWord w = decodeE w := by
  simp [decodeWord, hop]

theorem decodeWord_groupF {w : Word} (hop : opField w = 0xF#4) : decodeWord w = decodeF w := by
  simp [decodeWord, hop]

/-- The list of R78 in terms of the fields. -/
theorem isUnknownWord_iff (w : Word) : Claims.IsUnknownWord w ↔
    (opField w = 0x8#4 ∧ (nField w).toNat ∈ [0x8, 0x9, 0xA, 0xB, 0xC, 0xD, 0xF]) ∨
    (opField w = 0xE#4 ∧ (nnField w).toNat ∉ [0x9E, 0xA1]) ∨
    (opField w = 0xF#4 ∧ (nnField w).toNat ∉ [0x07, 0x0A, 0x15, 0x18, 0x1E, 0x29, 0x33, 0x55, 0x65]) := by
  rw [Claims.IsUnknownWord, ← toNat_opField w, ← toNat_nField w, ← toNat_nnField w]
  simp only [← BitVec.toNat_inj, BitVec.toNat_ofNat, Nat.reducePow, Nat.reduceMod]

theorem isUnknownWord_group8 {w : Word} (hop : opField w = 0x8#4) :
    Claims.IsUnknownWord w ↔ (nField w).toNat ∈ [0x8, 0x9, 0xA, 0xB, 0xC, 0xD, 0xF] := by
  rw [isUnknownWord_iff]; simp [hop]

theorem isUnknownWord_groupE {w : Word} (hop : opField w = 0xE#4) :
    Claims.IsUnknownWord w ↔ (nnField w).toNat ∉ [0x9E, 0xA1] := by
  rw [isUnknownWord_iff]; simp [hop]

theorem isUnknownWord_groupF {w : Word} (hop : opField w = 0xF#4) :
    Claims.IsUnknownWord w ↔ (nnField w).toNat ∉ [0x07, 0x0A, 0x15, 0x18, 0x1E, 0x29, 0x33, 0x55, 0x65] := by
  rw [isUnknownWord_iff]; simp [hop]

/-- Everything the decoder can answer on a word: an instruction the word encodes, or unknown, and unknown exactly on
the words R78 lists. -/
theorem decodeWord_cases (w : Word) : DecodesUnless (Claims.IsUnknownWord w) w (decodeWord w) := by
  by_cases h8 : opField w = 0x8#4
  · rw [decodeWord_group8 h8, isUnknownWord_group8 h8]
    exact decode8_cases h8
  by_cases hE : opField w = 0xE#4
  · rw [decodeWord_groupE hE, isUnknownWord_groupE hE]
    exact decodeE_cases hE
  by_cases hF : opField w = 0xF#4
  · rw [decodeWord_groupF hF, isUnknownWord_groupF hF]
    exact decodeF_cases hF
  rw [isUnknownWord_iff]
  exact .inl ⟨decodeWord_decodesBack h8 hE hF, by simp [h8, hE, hF]⟩

/-- Settles O5: of the two answers on a word, the instruction is one the word encodes. -/
theorem encodeReturnsTheDecodedWord : Obligations.EncodeReturnsTheDecodedWord := by
  intro w i h
  rcases decodeWord_cases w with ⟨⟨j, hj, hback⟩, -⟩ | ⟨hunknown, -⟩
  · cases hj.symm.trans h
    exact hback
  · cases hunknown.symm.trans h

/-- Settles O6: the two answers on a word, apart by the list of R78. -/
theorem unknownWordsAreTheListedOnes : Obligations.UnknownWordsAreTheListedOnes := by
  intro w
  rcases decodeWord_cases w with ⟨⟨i, hi, -⟩, hknown⟩ | ⟨hunknown, hlisted⟩
  · exact ⟨fun h => absurd h hknown, fun _ => ⟨i, hi⟩⟩
  · exact ⟨fun _ => hunknown, fun h => absurd hlisted h⟩

/-- Settles O7: twelve closed words, evaluated. -/
theorem sampleWordsDecodeAsWritten : Obligations.SampleWordsDecodeAsWritten := by
  unfold Obligations.SampleWordsDecodeAsWritten
  decide

end Sys2Proof
end

section
/-! Frames: the components each instruction may write, once for all instructions, and the frame rules of 10_state.md
that follow (R21, R24, R25, R27, R29 to R33, R56). -/

namespace Sys2Proof.Machine

open Sys2Proof.Claims

/-- The state s with the components that instruction i may write taken from t. -/
def written (i : Instr) (s t : State) : State :=
  match i with
  | .sys _ => s
  | .cls => { s with disp := t.disp, redraw := t.redraw }
  | .ret | .call _ => { s with stack := t.stack, pc := t.pc }
  | .jp _ | .jpV0 _ => { s with pc := t.pc }
  | .seImm _ _ | .sneImm _ _ | .seReg _ _ | .sneReg _ _ | .skp _ | .sknp _ => { s with pc := t.pc }
  | .ldImm _ _ | .addImm _ _ | .ldReg _ _ | .orReg _ _ | .andReg _ _ | .xorReg _ _ => { s with v := t.v }
  | .addReg _ _ | .sub _ _ | .shr _ _ | .subn _ _ | .shl _ _ | .ldVxDt _ => { s with v := t.v }
  | .ldI _ | .addI _ | .ldF _ => { s with idx := t.idx }
  | .rnd _ _ => { s with v := t.v, draws := t.draws }
  | .drw _ _ _ => { s with disp := t.disp, v := t.v, redraw := t.redraw }
  | .ldVxK _ => { s with pc := t.pc, v := t.v, draws := t.draws }
  | .ldDtVx _ => { s with dt := t.dt }
  | .ldStVx _ => { s with st := t.st }
  | .ldB _ => { s with mem := t.mem }
  | .ldMemVx _ => { s with mem := t.mem, idx := t.idx }
  | .ldVxMem _ => { s with v := t.v, idx := t.idx }
  | .loose5 _ _ _ | .loose9 _ _ _ => { s with pc := t.pc, log := t.log }

/-- A skip writes pc only. -/
theorem State.skipIf_frame (s : State) (c : Bool) : s.skipIf c = { s with pc := (s.skipIf c).pc } := by
  rw [State.skipIf_eq]; rfl

/-- A completed instruction changes nothing but the components it may write. -/
theorem exec_frame {i : Instr} {s t : State} (h : exec i s = .next t) : t = written i s t := by
  cases i with
  | call nnn => obtain ⟨-, rfl⟩ := execCall_next.1 h; rfl
  | ret => obtain ⟨l, w, -, rfl⟩ := execRet_next.1 h; rfl
  | skp x => obtain ⟨-, rfl⟩ := execSkp_next.1 h; exact s.skipIf_frame _
  | sknp x => obtain ⟨-, rfl⟩ := execSknp_next.1 h; exact s.skipIf_frame _
  | seImm x nn => cases h; exact s.skipIf_frame _
  | sneImm x nn => cases h; exact s.skipIf_frame _
  | seReg x y => cases h; exact s.skipIf_frame _
  | sneReg x y => cases h; exact s.skipIf_frame _
  | loose5 x y n =>
    obtain ⟨-, rfl⟩ | ⟨-, rfl⟩ := execLoose5_next.1 h
    · rw [s.skipIf_frame]; rfl
    · rfl
  | loose9 x y n =>
    obtain ⟨-, rfl⟩ | ⟨-, rfl⟩ := execLoose9_next.1 h
    · rw [s.skipIf_frame]; rfl
    · rfl
  | ldVxK x =>
    obtain ⟨-, rfl⟩ | ⟨-, rfl⟩ := execLdVxK_next.1 h
    · rfl
    · unfold State.countKeyDraw; split <;> rfl
  | drw x y n => obtain ⟨d, hit, -, rfl⟩ := execDrw_next.1 h; rfl
  | addI x => obtain ⟨-, rfl⟩ := execAddI_next.1 h; rfl
  | ldF x => obtain ⟨-, rfl⟩ := execLdF_next.1 h; rfl
  | ldB x => rw [(execLdB_next h).2]; rfl
  | ldMemVx x => obtain ⟨m, -, ⟨-, rfl⟩ | ⟨-, rfl⟩⟩ := execLdMemVx_next h <;> rfl
  | ldVxMem x => obtain ⟨s', -, hv, ⟨-, rfl⟩ | ⟨-, rfl⟩⟩ := execLdVxMem_next h <;> rw [hv] <;> rfl
  | _ => cases h; rfl

/-! ### What no instruction writes -/

section
variable (i : Instr) (s t : State)

@[simp] theorem written_cfg : (written i s t).cfg = s.cfg := by cases i <;> rfl
@[simp] theorem written_keys : (written i s t).keys = s.keys := by cases i <;> rfl
@[simp] theorem written_status : (written i s t).status = s.status := by cases i <;> rfl
@[simp] theorem written_phase : (written i s t).phase = s.phase := by cases i <;> rfl
@[simp] theorem written_keyQueue : (written i s t).keyQueue = s.keyQueue := by cases i <;> rfl
@[simp] theorem written_executed : (written i s t).executed = s.executed := by cases i <;> rfl
@[simp] theorem written_shown : (written i s t).shown = s.shown := by cases i <;> rfl
@[simp] theorem written_presents : (written i s t).presents = s.presents := by cases i <;> rfl
@[simp] theorem written_gate : (written i s t).gate = s.gate := by cases i <;> rfl

end

section
variable {i : Instr} {s t : State}

theorem exec_cfg (h : exec i s = .next t) : t.cfg = s.cfg := by rw [exec_frame h, written_cfg]

theorem exec_keys (h : exec i s = .next t) : t.keys = s.keys := by rw [exec_frame h, written_keys]

/-! ### What some instructions write -/

theorem exec_log (h : exec i s = .next t) (h5 : ∀ x y n, i ≠ .loose5 x y n) (h9 : ∀ x y n, i ≠ .loose9 x y n) :
    t.log = s.log := by
  rw [exec_frame h]
  cases i with
  | loose5 x y n => exact absurd rfl (h5 x y n)
  | loose9 x y n => exact absurd rfl (h9 x y n)
  | _ => rfl

theorem exec_mem (h : exec i s = .next t) (hB : ∀ x, i ≠ .ldB x) (hM : ∀ x, i ≠ .ldMemVx x) : t.mem = s.mem := by
  rw [exec_frame h]
  cases i with
  | ldB x => exact absurd rfl (hB x)
  | ldMemVx x => exact absurd rfl (hM x)
  | _ => rfl

theorem exec_stack (h : exec i s = .next t) (hcall : ∀ nnn, i ≠ .call nnn) (hret : i ≠ .ret) : t.stack = s.stack := by
  rw [exec_frame h]
  cases i with
  | call nnn => exact absurd rfl (hcall nnn)
  | ret => exact absurd rfl hret
  | _ => rfl

theorem exec_disp_redraw (h : exec i s = .next t) (hcls : i ≠ .cls) (hdrw : ∀ x y n, i ≠ .drw x y n) :
    t.disp = s.disp ∧ t.redraw = s.redraw := by
  rw [exec_frame h]
  cases i with
  | cls => exact absurd rfl hcls
  | drw x y n => exact absurd rfl (hdrw x y n)
  | _ => exact ⟨rfl, rfl⟩

theorem exec_dt (h : exec i s = .next t) (hdt : ∀ x, i ≠ .ldDtVx x) : t.dt = s.dt := by
  rw [exec_frame h]
  cases i with
  | ldDtVx x => exact absurd rfl (hdt x)
  | _ => rfl

theorem exec_st (h : exec i s = .next t) (hst : ∀ x, i ≠ .ldStVx x) : t.st = s.st := by
  rw [exec_frame h]
  cases i with
  | ldStVx x => exact absurd rfl (hst x)
  | _ => rfl

theorem exec_pc (h : exec i s = .next t) (hpc : ¬ MayWritePc i) : t.pc = s.pc := by
  rw [exec_frame h]
  cases i with
  | jp _ | call _ | ret | jpV0 _ | ldVxK _ | seImm _ _ | sneImm _ _ | seReg _ _ | sneReg _ _ | skp _ | sknp _
  | loose5 _ _ _ | loose9 _ _ _ => exact absurd trivial hpc
  | _ => rfl

theorem exec_idx (h : exec i s = .next t) (hidx : ¬ MayWriteIndex s.cfg i) : t.idx = s.idx := by
  cases i with
  | ldI _ | addI _ | ldF _ => exact absurd trivial hidx
  | ldMemVx x =>
    obtain ⟨m, -, ⟨-, rfl⟩ | ⟨hq, -⟩⟩ := execLdMemVx_next h
    · rfl
    · exact absurd hq hidx
  | ldVxMem x =>
    obtain ⟨s', -, hv, ⟨-, rfl⟩ | ⟨hq, -⟩⟩ := execLdVxMem_next h
    · rw [hv]
    · exact absurd hq hidx
  | _ => rw [exec_frame h]; rfl

theorem State.reg_countKeyDraw (s : State) (r : Nibble) : s.countKeyDraw.reg r = s.reg r := by
  unfold State.countKeyDraw
  split <;> rfl

/-- A register that instruction i may not write keeps its value (R24). -/
theorem exec_reg {r : Nibble} (h : exec i s = .next t) (hr : ¬ MayWriteReg i r) : t.reg r = s.reg r := by
  cases i with
  | ldImm x _ | addImm x _ | ldReg x _ | orReg x _ | andReg x _ | xorReg x _ | rnd x _ | ldVxDt x =>
    cases h
    exact s.reg_setReg_ne hr _
  | addReg x _ | sub x _ | shr x _ | subn x _ | shl x _ =>
    cases h
    obtain ⟨hx, hF⟩ := not_or.1 hr
    rw [s.reg_setRegFlag _ _ _ _ hF, if_neg hx]
  | drw x y n =>
    obtain ⟨d, hit, -, rfl⟩ := execDrw_next.1 h
    exact (s.setDisp d).reg_setReg_ne hr _
  | ldVxK x =>
    obtain ⟨-, rfl⟩ | ⟨-, rfl⟩ := execLdVxK_next.1 h
    · rfl
    · rw [State.reg_countKeyDraw, s.reg_setReg_ne hr]
  | ldVxMem x =>
    obtain ⟨s', hload, -, ht⟩ := execLdVxMem_next h
    have hloaded := (State.loadRegs_ok (by have := x.isLt; omega) hload).2 r
    have hbeyond : ¬ r.toNat ≤ x.toNat := hr
    rw [if_neg (by omega)] at hloaded
    obtain ⟨-, rfl⟩ | ⟨-, rfl⟩ := ht <;> exact hloaded
  | _ => rw [exec_frame h]; rfl

end

/-- Settles O37: one register at a time, by the destination of each instruction. -/
theorem otherRegistersAreKept : Obligations.OtherRegistersAreKept := fun _ _ _ _ => exec_reg

/-- Settles O38: I is in the frame of the listed instructions, and Q_MEMIDX false takes it out of two of them. -/
theorem otherInstructionsKeepIndex : Obligations.OtherInstructionsKeepIndex := fun _ _ _ => exec_idx

/-- Settles O35: a byte is read from memory and the configuration, and the frame has neither. -/
theorem otherInstructionsKeepMemory : Obligations.OtherInstructionsKeepMemory := by
  intro i s t hB hM h a
  rw [State.byteAt, exec_mem h hB hM, exec_cfg h, State.byteAt]

/-- Settles O39: pc is in the frame of the listed instructions only. -/
theorem otherInstructionsKeepPc : Obligations.OtherInstructionsKeepPc := fun _ _ _ => exec_pc

/-- Settles O40: one frame lemma per component. -/
theorem stackDisplayAndTimersFrame : Obligations.StackDisplayAndTimersFrame := fun _ _ _ h =>
  ⟨exec_stack h, exec_disp_redraw h, exec_dt h, exec_st h⟩

/-- Settles O41: the frame of no instruction has any of these components. -/
theorem instructionsKeepTheOtherAgentsState : Obligations.InstructionsKeepTheOtherAgentsState := by
  intro i s t h
  refine ⟨?_, ?_, ?_, ?_, ?_, ?_, ?_, ?_, ?_, exec_log h⟩ <;> rw [exec_frame h] <;> simp

end Sys2Proof.Machine
end

section
/-! Noninterference: no instruction reads the log (R37, D24) and none but DRW reads the display (R212, D23). Both are
put into other values at once, and every operation is shown to commute with that. -/

namespace Sys2Proof.Machine

open Sys2Proof.Claims

/-- The state s with another log and another display. -/
def State.relabel (s : State) (l : List Report) (d : Display) : State := { s with log := l, disp := d }

/-- The next state of an answer changed by f. -/
def onNext (f : State → State) : Result → Result
  | .next t => .next (f t)
  | .fault r => .fault r
  | .refused r => .refused r

section
variable (s : State) (l : List Report) (d : Display)

theorem finish_map (f : State → State) (e : Except Fault State) : finish (e.map f) = onNext f (finish e) := by
  cases e <;> rfl

theorem State.skipIf_relabel (c : Bool) : (s.relabel l d).skipIf c = (s.skipIf c).relabel l d := by
  cases c <;> rfl

theorem State.countKeyDraw_relabel : (s.relabel l d).countKeyDraw = s.countKeyDraw.relabel l d := by
  cases h : s.cfg.keyChoice <;> simp only [State.countKeyDraw, State.relabel, State.countDraw, h]

theorem State.writeIndex_relabel (n : Nat) :
    (s.relabel l d).writeIndex n = (s.writeIndex n).map (·.relabel l d) := by
  unfold State.writeIndex
  split <;> rfl

theorem State.advanceIndex_relabel (x : Nibble) :
    (s.relabel l d).advanceIndex x = (s.advanceIndex x).map (·.relabel l d) := by
  cases h : s.cfg.qMemIdx with
  | false => simp only [State.advanceIndex, State.relabel, h]; rfl
  | true => simpa [State.advanceIndex, State.relabel, h] using s.writeIndex_relabel l d (s.idx.toNat + x.toNat + 1)

theorem State.push_relabel (w : Word) : (s.relabel l d).push w = (s.push w).map (·.relabel l d) := by
  cases h : s.stackHasRoom with
  | true => rw [State.push_ok.2 ⟨h, rfl⟩]; exact State.push_ok.2 ⟨h, rfl⟩
  | false => rw [State.push_error.2 ⟨h, rfl⟩]; exact State.push_error.2 ⟨h, rfl⟩

theorem State.pop_relabel : (s.relabel l d).pop = s.pop.map fun p => (p.1, p.2.relabel l d) := by
  cases h : s.pop with
  | ok p =>
    obtain ⟨hs, hp⟩ := State.pop_ok.1 h
    exact State.pop_ok.2 ⟨hs, by rw [hp]; rfl⟩
  | error f => exact State.pop_error.2 (State.pop_error (s := s).1 h)

theorem State.memWrite_relabel (a : Nat) (b : Byte) :
    (s.relabel l d).memWrite a b = (s.memWrite a b).map (·.relabel l d) := by
  cases h : s.memWrite a b with
  | ok t =>
    obtain ⟨ha, hf, rfl⟩ := State.memWrite_ok.1 h
    exact State.memWrite_ok.2 ⟨ha, hf, rfl⟩
  | error f => exact State.memWrite_error.2 (State.memWrite_error (s := s).1 h)

theorem State.storeBytes_relabel (a : Nat) (bs : List Byte) :
    (s.relabel l d).storeBytes a bs = (s.storeBytes a bs).map (·.relabel l d) := by
  induction bs generalizing s a with
  | nil => rfl
  | cons b bs ih =>
    rw [State.storeBytes, State.memWrite_relabel, State.storeBytes]
    cases s.memWrite a b with
    | ok t => exact ih t (a + 1)
    | error f => rfl

theorem State.loadRegs_relabel (i a n : Nat) :
    (s.relabel l d).loadRegs i a n = (s.loadRegs i a n).map (·.relabel l d) := by
  induction n generalizing s i a with
  | zero => rfl
  | succ n ih =>
    rw [State.loadRegs, show (s.relabel l d).memRead a = s.memRead a from rfl, State.loadRegs]
    cases s.memRead a with
    | ok b => exact ih (s.setReg (BitVec.ofNat 4 i) b) (i + 1) (a + 1)
    | error f => rfl

theorem State.drawRows_relabel (sx sy r n : Nat) (acc : Display × Bool) :
    (s.relabel l d).drawRows sx sy r acc n = s.drawRows sx sy r acc n := by
  induction n generalizing r acc with
  | zero => rfl
  | succ n ih =>
    simp only [State.drawRows, ih]
    rfl

end

/-- The instructions that neither read nor write the log and the display. -/
def Quiet : Instr → Prop
  | .cls | .drw _ _ _ | .loose5 _ _ _ | .loose9 _ _ _ => False
  | _ => True

theorem exec_relabel {i : Instr} (hi : Quiet i) (s : State) (l : List Report) (d : Display) :
    exec i (s.relabel l d) = onNext (·.relabel l d) (exec i s) := by
  cases i with
  | cls | drw _ _ _ | loose5 _ _ _ | loose9 _ _ _ => exact hi.elim
  | call nnn =>
    simp only [exec, execCall, State.push_relabel]
    rw [show (s.relabel l d).pc = s.pc from rfl]
    cases s.push s.pc <;> rfl
  | ret =>
    simp only [exec, execRet, State.pop_relabel]
    cases s.pop <;> rfl
  | seImm x nn | sneImm x nn | seReg x y | sneReg x y => exact congrArg _ (s.skipIf_relabel l d _)
  | skp x | sknp x =>
    simp only [exec, execSkp, execSknp, State.skipIf_relabel]
    rw [show (s.relabel l d).keyOperand x = s.keyOperand x from rfl]
    cases s.keyOperand x <;> rfl
  | ldVxK x =>
    simp only [exec, execLdVxK]
    rw [show (s.relabel l d).pressedKeys = s.pressedKeys from rfl]
    split
    · rfl
    · exact congrArg _ (State.countKeyDraw_relabel (s.setReg x (BitVec.ofNat 8 s.chosenKey)) l d)
  | addI x => rw [exec, execAddI, State.writeIndex_relabel, finish_map]; rfl
  | ldF x =>
    simp only [exec, execLdF, State.writeIndex_relabel, finish_map]
    rw [show (s.relabel l d).digitOperand x = s.digitOperand x from rfl]
    cases s.digitOperand x <;> rfl
  | ldB x => rw [exec, execLdB, State.storeBytes_relabel, finish_map]; rfl
  | ldMemVx x =>
    simp only [exec, execLdMemVx, State.storeBytes_relabel]
    rw [show (s.relabel l d).idx = s.idx from rfl, show (s.relabel l d).regsUpTo x = s.regsUpTo x from rfl]
    cases s.storeBytes s.idx.toNat (s.regsUpTo x) with
    | ok t => exact (congrArg finish (t.advanceIndex_relabel l d x)).trans (finish_map _ _)
    | error f => rfl
  | ldVxMem x =>
    simp only [exec, execLdVxMem, State.loadRegs_relabel]
    rw [show (s.relabel l d).idx = s.idx from rfl]
    cases s.loadRegs 0 s.idx.toNat (x.toNat + 1) with
    | ok t => exact (congrArg finish (t.advanceIndex_relabel l d x)).trans (finish_map _ _)
    | error f => rfl
  | _ => rfl

theorem exec_log_disp_of_quiet {i : Instr} (hi : Quiet i) {s t : State} (h : exec i s = .next t) :
    t.log = s.log ∧ t.disp = s.disp := by
  rw [exec_frame h]
  cases i with
  | cls | drw _ _ _ | loose5 _ _ _ | loose9 _ _ _ => exact hi.elim
  | _ => exact ⟨rfl, rfl⟩

theorem exec_setDisp_of_quiet {i : Instr} (hi : Quiet i) {s t : State} (d : Display) (h : exec i s = .next t) :
    exec i (s.setDisp d) = .next (t.setDisp d) := by
  have hlog : t.log = s.log := (exec_log_disp_of_quiet hi h).1
  calc exec i (s.relabel s.log d) = onNext (·.relabel s.log d) (exec i s) := exec_relabel hi s s.log d
    _ = .next (t.relabel t.log d) := by rw [h, hlog]; rfl

theorem State.skipIf_setDisp (s : State) (d : Display) (c : Bool) :
    (s.setDisp d).skipIf c = (s.skipIf c).setDisp d := by
  cases c <;> rfl

/-- An instruction but CLS and DRW does the same with another display, and keeps that. -/
theorem exec_setDisp {i : Instr} {s t : State} (d : Display) (h : exec i s = .next t) (hcls : i ≠ .cls)
    (hdrw : ∀ x y n, i ≠ .drw x y n) : exec i (s.setDisp d) = .next (t.setDisp d) := by
  cases i with
  | drw x y n => exact absurd rfl (hdrw x y n)
  | cls => exact absurd rfl hcls
  | loose5 x y n =>
    obtain ⟨hl, rfl⟩ | ⟨hl, rfl⟩ := execLoose5_next.1 h
    · exact execLoose5_next.2 (.inl ⟨hl, (s.skipIf_setDisp d _).symm⟩)
    · exact execLoose5_next.2 (.inr ⟨hl, rfl⟩)
  | loose9 x y n =>
    obtain ⟨hl, rfl⟩ | ⟨hl, rfl⟩ := execLoose9_next.1 h
    · exact execLoose9_next.2 (.inl ⟨hl, (s.skipIf_setDisp d _).symm⟩)
    · exact execLoose9_next.2 (.inr ⟨hl, rfl⟩)
  | _ => exact exec_setDisp_of_quiet (by trivial) d h

/-- Settles O60: CLS writes a display of its own, every other instruction keeps the given one. -/
theorem onlyDrawReadsTheDisplay : Obligations.OnlyDrawReadsTheDisplay := by
  intro i s t d hdrw h
  by_cases hcls : i = .cls
  · subst hcls
    cases h
    rfl
  · rw [if_neg hcls]
    exact exec_setDisp d h hcls hdrw

/-! ### The log -/

/-- The state s with another log. -/
def State.setLog (s : State) (l : List Report) : State := { s with log := l }

/-- An instruction but an unsettled word does the same with another log, and keeps that. -/
theorem exec_setLog (i : Instr) (s : State) (l : List Report) (h5 : ∀ x y n, i ≠ .loose5 x y n)
    (h9 : ∀ x y n, i ≠ .loose9 x y n) : exec i (s.setLog l) = onNext (·.setLog l) (exec i s) := by
  have quiet {i : Instr} (hi : Quiet i) : exec i (s.relabel l s.disp) = onNext (·.setLog l) (exec i s) := by
    rw [exec_relabel hi]
    cases h : exec i s with
    | next t => simp only [onNext, State.relabel, State.setLog, (exec_log_disp_of_quiet hi h).2]
    | fault f => rfl
    | refused r => rfl
  cases i with
  | cls => rfl
  | drw x y n =>
    change exec (.drw x y n) (s.relabel l s.disp) = _
    simp only [exec, execDrw, State.drawRows_relabel]
    rw [show (s.relabel l s.disp).reg = s.reg from rfl, show (s.relabel l s.disp).disp = s.disp from rfl]
    cases s.drawRows ((s.reg x).toNat % 64) ((s.reg y).toNat % 32) 0 (s.disp, false) n.toNat <;> rfl
  | loose5 x y n => exact absurd rfl (h5 x y n)
  | loose9 x y n => exact absurd rfl (h9 x y n)
  | _ => exact quiet (by trivial)

/-- A state that keeps the log, whatever it is, appends no report. -/
theorem sameButLog_setLog {s t : State} (l : List Report) (h : t.log = s.log) :
    SameButLog s l (.next t) (.next (t.setLog l)) :=
  ⟨[], by rw [h, List.append_nil], by rw [List.append_nil]; rfl⟩

theorem sameButLog_skipIf (s : State) (l : List Report) (c : Bool) :
    SameButLog s l (.next (s.skipIf c)) (.next ((s.setLog l).skipIf c)) := by
  rw [State.skipIf_eq, State.skipIf_eq]
  exact sameButLog_setLog l rfl

theorem exec_sameButLog (i : Instr) (s : State) (l : List Report) :
    SameButLog s l (exec i s) (exec i (s.setLog l)) := by
  have settled (h5 : ∀ x y n, i ≠ .loose5 x y n) (h9 : ∀ x y n, i ≠ .loose9 x y n) :
      SameButLog s l (exec i s) (exec i (s.setLog l)) := by
    rw [exec_setLog i s l h5 h9]
    cases h : exec i s with
    | next t => exact sameButLog_setLog l (exec_log h h5 h9)
    | fault f => exact rfl
    | refused r => exact rfl
  cases i with
  | loose5 x y n =>
    cases hl : s.cfg.loose59 <;> simp only [exec, execLoose5, execSeReg, State.setLog, hl]
    · exact rfl
    · exact sameButLog_skipIf s l (s.reg x == s.reg y)
    · exact ⟨_, rfl, rfl⟩
  | loose9 x y n =>
    cases hl : s.cfg.loose59 <;> simp only [exec, execLoose9, execSneReg, State.setLog, hl]
    · exact rfl
    · exact sameButLog_skipIf s l (s.reg x != s.reg y)
    · exact ⟨_, rfl, rfl⟩
  | _ => exact settled (by simp) (by simp)

theorem instrStep_sameButLog (s : State) (l : List Report) :
    SameButLog s l (instrStep s) (instrStep (s.setLog l)) := by
  unfold instrStep
  rw [show (s.setLog l).fetchBytes = s.fetchBytes from rfl]
  cases s.fetchBytes with
  | error f => exact rfl
  | ok bytes =>
    change SameButLog s l (runDecoded (decode bytes) (s.setPc (s.pc + 2#16)))
      (runDecoded (decode bytes) ((s.setPc (s.pc + 2#16)).setLog l))
    cases decode bytes with
    | instr i => exact exec_sameButLog i (s.setPc (s.pc + 2#16)) l
    | unknown w => exact ⟨_, rfl, rfl⟩
    | truncated => exact rfl

/-! ### The other moves of the sequencer -/

theorem State.applyKeyEvent_setLog (s : State) (l : List Report) (e : KeyEvent) :
    (s.setLog l).applyKeyEvent e = (s.applyKeyEvent e).setLog l := by
  cases e <;> simp only [State.applyKeyEvent, State.setLog] <;> split <;> rfl

theorem State.pollKeys_setLog (s : State) (l : List Report) : (s.setLog l).pollKeys = s.pollKeys.setLog l := by
  simp only [State.pollKeys, State.applyKeyEvent_setLog]
  rw [show (s.setLog l).keyQueue = s.keyQueue from rfl, show (s.setLog l).draws = s.draws from rfl]
  split <;> rfl

theorem present_sameButLog (s : State) (l : List Report) :
    SameButLog s l (.next (s.present.setPhase .audio)) (.next ((s.setLog l).present.setPhase .audio)) := by
  unfold State.present
  rw [show (s.setLog l).redraw = s.redraw from rfl]
  split
  · exact ⟨_, rfl, rfl⟩
  · exact sameButLog_setLog l rfl

theorem driveGate_sameButLog (s : State) (l : List Report) :
    SameButLog s l (.next (s.driveGate.setPhase .poll)) (.next ((s.setLog l).driveGate.setPhase .poll)) := by
  unfold State.driveGate
  rw [show (s.setLog l).audioOn = s.audioOn from rfl, show (s.setLog l).gate = s.gate from rfl]
  split
  · exact sameButLog_setLog l rfl
  · exact ⟨_, rfl, rfl⟩

theorem runPhase_sameButLog (s : State) (l : List Report) :
    SameButLog s l (runPhase s) (runPhase (s.setLog l)) := by
  unfold runPhase
  rw [show (s.setLog l).phase = s.phase from rfl]
  cases s.phase with
  | poll =>
    dsimp only
    rw [State.pollKeys_setLog]
    exact sameButLog_setLog l (by rw [State.pollKeys_eq]; simp [State.startBurst])
  | burst k =>
    cases k with
    | zero => exact sameButLog_setLog l rfl
    | succ k => exact instrStep_sameButLog (s.setPhase (.burst k)).countStep l
  | present => exact present_sameButLog s l
  | audio => exact driveGate_sameButLog s l

/-- Settles O59: each agent's move appends the same reports to either log. -/
theorem logIsOutputOnly : Obligations.LogIsOutputOnly := by
  intro s l
  change SameButLog s l (step s) (step (s.setLog l))
  unfold step
  rw [show (s.setLog l).status = s.status from rfl]
  cases s.status with
  | running => exact runPhase_sameButLog s l
  | faulted f => exact rfl
  | refused r => exact rfl

end Sys2Proof.Machine
end

section
/-! Faults and refusals: when each instruction that can stop does, and the table of causes (60_exceptions.md R232, R236)
that follows. -/

namespace Sys2Proof.Machine

open Sys2Proof.Claims

theorem finish_fault {e : Except Fault State} {f : Fault} : finish e = .fault f ↔ e = .error f := by
  cases e <;> simp [finish, raise]

theorem execCall_fault {nnn : Addr12} {s : State} {f : Fault} :
    execCall nnn s = .fault f ↔ s.stackHasRoom = false ∧ f = .stackOverflow s.instrAddr := by
  unfold execCall
  cases h : s.push s.pc with
  | ok t => simp [(State.push_ok.1 h).1]
  | error g => obtain ⟨hfull, rfl⟩ := State.push_error.1 h; simp [raise, hfull, eq_comm]

theorem execRet_fault {s : State} {f : Fault} :
    execRet s = .fault f ↔ s.stack = [] ∧ f = .stackUnderflow s.instrAddr := by
  unfold execRet
  cases h : s.pop with
  | ok p => simp [(State.pop_ok (t := p.2) (w := p.1).1 h).1]
  | error g => obtain ⟨hempty, rfl⟩ := State.pop_error.1 h; simp [raise, hempty, eq_comm]

theorem execSkp_fault {x : Nibble} {s : State} {f : Fault} :
    execSkp x s = .fault f ↔ 0xF < (s.reg x).toNat ∧ f = .keyRange (s.reg x) s.instrAddr := by
  unfold execSkp
  rw [← State.keyOperand_error]
  cases s.keyOperand x <;> simp [raise]

theorem execSknp_fault {x : Nibble} {s : State} {f : Fault} :
    execSknp x s = .fault f ↔ 0xF < (s.reg x).toNat ∧ f = .keyRange (s.reg x) s.instrAddr := by
  unfold execSknp
  rw [← State.keyOperand_error]
  cases s.keyOperand x <;> simp [raise]

theorem execAddI_fault {x : Nibble} {s : State} {f : Fault} :
    execAddI x s = .fault f ↔ 0xFFFF < s.idx.toNat + (s.reg x).toNat ∧
      f = .indexOverflow (s.idx.toNat + (s.reg x).toNat) s.instrAddr := by
  unfold execAddI
  rw [finish_fault, State.writeIndex_error]

/-- A glyph's address never overflows I (R53, R173). -/
theorem execLdF_fault {x : Nibble} {s : State} {f : Fault} :
    execLdF x s = .fault f ↔ 0xF < (s.reg x).toNat ∧ f = .fontDigit (s.reg x) s.instrAddr := by
  have hbase := s.cfg.fontBase.isLt
  unfold execLdF
  rw [← State.digitOperand_error]
  cases h : s.digitOperand x with
  | ok d =>
    obtain ⟨hd, rfl⟩ := State.digitOperand_ok.1 h
    have hfits : s.cfg.fontBase.val + (s.reg x).toNat * 5 ≤ 0xFFFF := by omega
    simp [State.writeIndex, hfits, finish]
  | error g => simp [raise]

theorem execLdB_fault {x : Nibble} {s : State} {f : Fault} :
    execLdB x s = .fault f ↔ s.storeBytes s.idx.toNat (decimalDigits (s.reg x)) = .error f := finish_fault

theorem execDrw_fault {x y n : Nibble} {s : State} {f : Fault} :
    execDrw x y n s = .fault f ↔
      s.drawRows ((s.reg x).toNat % 64) ((s.reg y).toNat % 32) 0 (s.disp, false) n.toNat = .error f := by
  unfold execDrw
  cases s.drawRows ((s.reg x).toNat % 64) ((s.reg y).toNat % 32) 0 (s.disp, false) n.toNat <;> simp [raise]

/-- A bulk store that completes ends inside memory, so the advance of I does not overflow (R171, R175). -/
theorem execLdMemVx_of_storeBytes_ok {x : Nibble} {s t : State}
    (h : s.storeBytes s.idx.toNat (s.regsUpTo x) = .ok t) :
    execLdMemVx x s = .next (t.setIdx (indexAfter s x)) := by
  have hin := (State.storeBytes_ok_writable h x.toNat (by rw [State.length_regsUpTo]; omega)).1
  have ht : t = s.setMem t.mem := (State.storeBytes_ok h).1
  have hafter : indexAfter t x = indexAfter s x := by rw [ht]; rfl
  have hadv := State.advanceIndex_inside (s := t) (x := x) (by rw [ht]; exact hin)
  rw [execLdMemVx, h, ← hafter]
  exact finish_next.2 hadv

theorem execLdMemVx_fault {x : Nibble} {s : State} {f : Fault} :
    execLdMemVx x s = .fault f ↔ s.storeBytes s.idx.toNat (s.regsUpTo x) = .error f := by
  cases h : s.storeBytes s.idx.toNat (s.regsUpTo x) with
  | ok t => simp [execLdMemVx_of_storeBytes_ok h]
  | error g => simp [execLdMemVx, h, raise]

theorem execLdVxMem_fault {x : Nibble} {s : State} {f : Fault} :
    execLdVxMem x s = .fault f ↔
      4096 ≤ s.idx.toNat + x.toNat ∧ f = .memBounds (max s.idx.toNat 4096) s.instrAddr := by
  by_cases hin : s.idx.toNat + x.toNat < 4096
  · obtain ⟨t, -, hnext⟩ := execLdVxMem_inside hin
    simp [hnext]
    omega
  · rw [execLdVxMem_outside (by omega)]
    simp [eq_comm]
    omega

theorem execLoose5_not_fault {x y n : Nibble} {s : State} {f : Fault} : execLoose5 x y n s ≠ .fault f := by
  unfold execLoose5
  split <;> exact nofun

theorem execLoose9_not_fault {x y n : Nibble} {s : State} {f : Fault} : execLoose9 x y n s ≠ .fault f := by
  unfold execLoose9
  split <;> exact nofun

/-! ### The table of causes -/

theorem stackHasRoom_eq_false {s : State} :
    s.stackHasRoom = false ↔ ∃ d, s.cfg.stackDepth = some d ∧ d ≤ s.stack.length := by
  rw [← Bool.not_eq_true, State.stackHasRoom_iff]
  push Not
  rfl

theorem fontProtected_iff {c : Config} {a : Nat} :
    fontProtected c a = true ↔ c.fontWrite = .fault ∧ c.fontBase.val ≤ a ∧ a < c.fontBase.val + 80 := by
  simp [fontProtected, inFont, and_comm]

/-- The row of R232 for a fault of instruction i: its condition, and the information it carries. -/
def FaultCause (i : Instr) (s : State) : Fault → Prop
  | .fetchBounds _ => False
  | .memBounds a at' => 4096 ≤ a ∧ at' = addrOf s ∧
      ((∃ x y n, i = .drw x y n) ∨ (∃ x, i = .ldB x ∨ i = .ldMemVx x ∨ i = .ldVxMem x))
  | .stackUnderflow at' => i = .ret ∧ s.stack = [] ∧ at' = addrOf s
  | .stackOverflow at' =>
      (∃ nnn, i = .call nnn) ∧ (∃ d, s.cfg.stackDepth = some d ∧ d ≤ s.stack.length) ∧ at' = addrOf s
  | .indexOverflow v at' => 0xFFFF < v ∧ at' = addrOf s ∧ ∃ x, i = .addI x
  | .keyRange v at' => 0xF < v.toNat ∧ at' = addrOf s ∧ ∃ x, s.reg x = v ∧ (i = .skp x ∨ i = .sknp x)
  | .fontDigit v at' => 0xF < v.toNat ∧ at' = addrOf s ∧ ∃ x, s.reg x = v ∧ i = .ldF x
  | .fontWrite a at' => s.cfg.fontWrite = .fault ∧ s.cfg.fontBase.val ≤ a ∧ a < s.cfg.fontBase.val + 80 ∧
      at' = addrOf s ∧ ∃ x, i = .ldB x ∨ i = .ldMemVx x

/-- A store stops outside memory or in the protected font region. -/
theorem faultCause_of_storeBytes {i : Instr} {x : Nibble} {s : State} {a : Nat} {bs : List Byte} {f : Fault}
    (h : s.storeBytes a bs = .error f) (hi : i = .ldB x ∨ i = .ldMemVx x) : FaultCause i s f := by
  obtain ⟨k, -, -, ⟨hout, rfl⟩ | ⟨-, hfont, rfl⟩⟩ := State.storeBytes_error h
  · exact ⟨hout, rfl, .inr ⟨x, hi.imp id .inl⟩⟩
  · obtain ⟨hw, hlo, hhi⟩ := fontProtected_iff.1 hfont
    exact ⟨hw, hlo, hhi, rfl, x, hi⟩

theorem exec_fault {i : Instr} {s : State} {f : Fault} (h : exec i s = .fault f) : FaultCause i s f := by
  cases i with
  | call nnn =>
    obtain ⟨hfull, rfl⟩ := execCall_fault.1 h
    exact ⟨⟨nnn, rfl⟩, stackHasRoom_eq_false.1 hfull, rfl⟩
  | ret =>
    obtain ⟨hempty, rfl⟩ := execRet_fault.1 h
    exact ⟨rfl, hempty, rfl⟩
  | skp x =>
    obtain ⟨hv, rfl⟩ := execSkp_fault.1 h
    exact ⟨hv, rfl, x, rfl, .inl rfl⟩
  | sknp x =>
    obtain ⟨hv, rfl⟩ := execSknp_fault.1 h
    exact ⟨hv, rfl, x, rfl, .inr rfl⟩
  | addI x =>
    obtain ⟨hv, rfl⟩ := execAddI_fault.1 h
    exact ⟨hv, rfl, x, rfl⟩
  | ldF x =>
    obtain ⟨hv, rfl⟩ := execLdF_fault.1 h
    exact ⟨hv, rfl, x, rfl, rfl⟩
  | ldB x => exact faultCause_of_storeBytes (execLdB_fault.1 h) (.inl rfl)
  | ldMemVx x => exact faultCause_of_storeBytes (execLdMemVx_fault.1 h) (.inr rfl)
  | ldVxMem x =>
    obtain ⟨-, rfl⟩ := execLdVxMem_fault.1 h
    exact ⟨le_max_right _ _, rfl, .inr ⟨x, .inr (.inr rfl)⟩⟩
  | drw x y n =>
    obtain ⟨k, -, -, hout, -, rfl⟩ := State.drawRows_error (execDrw_fault.1 h)
    exact ⟨hout, rfl, .inl ⟨x, y, n, rfl⟩⟩
  | ldVxK x => simp only [exec, execLdVxK] at h; split at h <;> cases h
  | loose5 x y n => exact absurd h execLoose5_not_fault
  | loose9 x y n => exact absurd h execLoose9_not_fault
  | _ => cases h

/-- R236: only an unsettled word is refused, and only under LOOSE_5_9 = refuse. -/
theorem exec_refused {i : Instr} {s : State} {r : Refusal} (h : exec i s = .refused r) :
    s.cfg.loose59 = .refuse ∧ ∃ x y n, i = .loose5 x y n ∨ i = .loose9 x y n := by
  cases i with
  | loose5 x y n => cases hl : s.cfg.loose59 <;> simp [exec, execLoose5, execSeReg, hl] at h ⊢
  | loose9 x y n => cases hl : s.cfg.loose59 <;> simp [exec, execLoose9, execSneReg, hl] at h ⊢
  | call _ | ret | skp _ | sknp _ | ldVxK _ | drw _ _ _ =>
    simp only [exec, execCall, execRet, execSkp, execSknp, execLdVxK, execDrw] at h
    split at h <;> cases h
  | addI _ | ldB _ => exact absurd h finish_not_refused
  | ldF _ | ldMemVx _ | ldVxMem _ =>
    simp only [exec, execLdF, execLdMemVx, execLdVxMem] at h
    split at h
    · exact absurd h finish_not_refused
    · cases h
  | _ => cases h

/-- Settles O50: each clause is a row of the table. The advance of I in a bulk transfer never overflows, so the row of
IndexOverflow has ADD I, Vx alone. -/
theorem faultsHaveTheirListedCauses : Obligations.FaultsHaveTheirListedCauses := by
  intro i s
  refine ⟨fun pc h => exec_fault h, fun a at' h => exec_fault h, fun at' h => exec_fault h, fun at' h => exec_fault h,
    fun v at' h => ?_, fun v at' h => exec_fault h, fun v at' h => exec_fault h, fun a at' h => exec_fault h,
    fun r h => exec_refused h⟩
  obtain ⟨hv, hat, x, hi⟩ := exec_fault h
  exact ⟨hv, hat, x, .inl hi⟩

end Sys2Proof.Machine
end

section
/-! Flow control (41_flow.md) and the skips by register and by key (42_skip.md R123 to R127). -/

namespace Sys2Proof.Machine

open Sys2Proof.Claims

theorem exec_sys (nnn : Addr12) (s : State) : exec (.sys nnn) s = .next s := rfl

/-- Settles O11: by definition (D2). -/
theorem sysHasNoEffect : Obligations.SysHasNoEffect := exec_sys

/-! ### Jumps -/

theorem exec_jp (nnn : Addr12) (s : State) : exec (.jp nnn) s = .next (s.setPc (widen nnn)) := rfl

theorem exec_jpV0 (nnn : Addr12) (s : State) :
    exec (.jpV0 nnn) s = .next (s.setPc (widen nnn + (s.reg (offsetReg s.cfg nnn)).setWidth 16)) := rfl

/-- R52: the second byte of the word is outside memory (D8 for pc = 0xFFF). -/
theorem instrStep_outside {s : State} (h : 4096 ≤ s.pc.toNat + 1) : instrStep s = .fault (.fetchBounds s.pc) := by
  rw [instrStep, State.fetchBytes, if_neg (by omega)]
  rfl

/-- R71: the x field of a BNNN word is the top nibble of nnn. -/
theorem xOfNnn_eq (nnn : Addr12) : xOfNnn nnn = BitVec.ofNat 4 (nnn.toNat / 256) := by
  apply BitVec.eq_of_toNat_eq
  rw [xOfNnn, BitVec.extractLsb'_toNat, Nat.shiftRight_eq_div_pow, BitVec.toNat_ofNat]

/-- R104: the sum of a 12-bit target and a byte is exact in 16 bits. -/
theorem toNat_widen_add (nnn : Addr12) (b : Byte) : (widen nnn + b.setWidth 16).toNat = nnn.toNat + b.toNat := by
  have hnnn : nnn.toNat < 4096 := nnn.isLt
  have hb : b.toNat < 256 := b.isLt
  rw [BitVec.toNat_add, toNat_widen, BitVec.toNat_setWidth_of_le (by decide)]
  omega

/-- Settles O12: both targets are exact, and a fetch from the end of memory on is outside it. -/
theorem jumpsReplacePc : Obligations.JumpsReplacePc := by
  intro nnn s
  refine ⟨_, _, exec_jp nnn s, rfl, toNat_widen nnn, fun h => instrStep_outside (by omega), exec_jpV0 nnn s, rfl, ?_,
    fun h => instrStep_outside (by omega)⟩
  rw [State.setPc_pc, toNat_widen_add, offsetReg, xOfNnn_eq, apply_ite s.reg]

/-! ### Subroutines -/

/-- Settles O13: a push succeeds exactly when the stack has room. -/
theorem callPushesTheReturnAddress : Obligations.CallPushesTheReturnAddress := fun nnn _ =>
  ⟨fun hroom => execCall_next.2 ⟨State.stackHasRoom_iff.2 hroom, by rw [← toNat_widen nnn, BitVec.ofNat_toNat]; rfl⟩,
    fun d hd hfull => execCall_fault.2 ⟨stackHasRoom_eq_false.2 ⟨d, hd, hfull⟩, rfl⟩⟩

/-- Settles O14: a pop succeeds exactly when the stack is not empty. -/
theorem retPopsIntoPc : Obligations.RetPopsIntoPc := fun _ =>
  ⟨fun l w hs => execRet_next.2 ⟨l, w, hs, rfl⟩, fun hempty => execRet_fault.2 ⟨hempty, rfl⟩⟩

/-! ### Skips -/

theorem exec_seReg (x y : Nibble) (s : State) : exec (.seReg x y) s = .next (s.skipIf (s.reg x == s.reg y)) := rfl

theorem exec_sneReg (x y : Nibble) (s : State) : exec (.sneReg x y) s = .next (s.skipIf (s.reg x != s.reg y)) := rfl

theorem exec_loose5 (x y n : Nibble) (s : State) : exec (.loose5 x y n) s = execLoose5 x y n s := rfl

theorem exec_loose9 (x y n : Nibble) (s : State) : exec (.loose9 x y n) s = execLoose9 x y n s := rfl

/-- Settles O16: the two register skips test opposite conditions, and LOOSE_5_9 chooses what an unsettled word does. -/
theorem registerSkipsAndUnsettledWords : Obligations.RegisterSkipsAndUnsettledWords := by
  intro x y n s
  refine ⟨_, _, rfl, rfl, ?_, ?_, fun hl => ?_, fun hl => ?_, fun hl => ?_⟩
  · rw [exec_seReg]
    split
    next heq => rw [s.skipIf_of_true (beq_iff_eq.2 heq)]
    next hne => rw [s.skipIf_of_false (beq_eq_false_iff_ne.2 hne)]
  · rw [exec_sneReg]
    split
    next heq => rw [s.skipIf_of_false (bne_eq_false_iff_eq.2 heq)]
    next hne => rw [s.skipIf_of_true (bne_iff_ne.2 hne)]
  all_goals rw [exec_loose5, exec_loose9, execLoose5, execLoose9, hl]; exact ⟨rfl, rfl⟩

/-- R120: a skip as its value of pc. -/
theorem next_skipIf (s : State) (c : Bool) :
    (.next (s.skipIf c) : Result) = .next { s with pc := if c then s.pc + 2#16 else s.pc } := by
  rw [State.skipIf_eq]
  rfl

/-- Settles O17: V[x] as a key code, or the fault of a larger value. -/
theorem keySkips : Obligations.KeySkips := by
  intro x s
  refine ⟨fun k hk => ?_, fun hv => ⟨execSkp_fault.2 ⟨hv, rfl⟩, execSknp_fault.2 ⟨hv, rfl⟩⟩⟩
  have hlt : k.toNat < 16 := k.isLt
  have hcode : (s.reg x).setWidth 4 = k := BitVec.eq_of_toNat_eq (by rw [BitVec.toNat_setWidth]; omega)
  have hskp : exec (.skp x) s = .next (s.skipIf (s.pressed k)) := execSkp_next.2 ⟨by omega, by rw [hcode]⟩
  have hsknp : exec (.sknp x) s = .next (s.skipIf (!s.pressed k)) := execSknp_next.2 ⟨by omega, by rw [hcode]⟩
  rw [hskp, hsknp, next_skipIf, next_skipIf]
  cases s.pressed k <;> exact ⟨rfl, rfl⟩

end Sys2Proof.Machine
end

section
/-! The operations that write a flag (43_alu.md R147 to R151): all of them end in `State.setRegFlag`. -/

namespace Sys2Proof.Machine

open Sys2Proof.Claims

theorem exec_addReg (x y : Nibble) (s : State) :
    exec (.addReg x y) s = .next (s.setRegFlag x (s.reg x + s.reg y) (carryOut (s.reg x) (s.reg y))) := rfl

theorem exec_sub (x y : Nibble) (s : State) :
    exec (.sub x y) s = .next (s.setRegFlag x (s.reg x - s.reg y) (noBorrow (s.reg x) (s.reg y))) := rfl

theorem exec_subn (x y : Nibble) (s : State) :
    exec (.subn x y) s = .next (s.setRegFlag x (s.reg y - s.reg x) (noBorrow (s.reg y) (s.reg x))) := rfl

theorem exec_shr (x y : Nibble) (s : State) :
    exec (.shr x y) s = .next (s.setRegFlag x (s.shiftSource x y >>> 1) (lowBit (s.shiftSource x y))) := rfl

theorem exec_shl (x y : Nibble) (s : State) :
    exec (.shl x y) s = .next (s.setRegFlag x (s.shiftSource x y <<< 1) (highBit (s.shiftSource x y))) := rfl

theorem toNat_flagByte (f : Bool) : (flagByte f).toNat = if f then 1 else 0 := by
  cases f <;> rfl

theorem toNat_flagByte_decide (p : Prop) [Decidable p] : (flagByte (decide p)).toNat = if p then 1 else 0 := by
  simp only [toNat_flagByte, decide_eq_true_eq]

/-- R149: the bit a right shift moves out is the remainder mod 2. -/
theorem toNat_flagByte_lowBit (b : Byte) : (flagByte (lowBit b)).toNat = b.toNat % 2 := by
  have h : lowBit b = decide (b.toNat % 2 = 1) := by simp [lowBit, BitVec.getLsbD]
  rw [h, toNat_flagByte_decide]
  split <;> omega

/-- R151: the bit a left shift moves out is the quotient by 128. -/
theorem toNat_flagByte_highBit (b : Byte) : (flagByte (highBit b)).toNat = b.toNat / 128 := by
  have hb : b.toNat < 256 := b.isLt
  have h : highBit b = decide (b.toNat / 128 % 2 = 1) := Nat.testBit_eq_decide_div_mod_eq
  rw [h, toNat_flagByte_decide]
  split <;> omega

theorem flaggedResult_setRegFlag (s : State) (x : Nibble) {b : Byte} {f : Bool} {result flag : Nat}
    (hb : b.toNat = result) (hf : (flagByte f).toNat = flag) :
    FlaggedResult s x result flag (.next (s.setRegFlag x b f)) := by
  refine ⟨_, rfl, s.setRegFlag_eq x b f, ?_, fun hx => ?_, fun y hyx hyF => ?_⟩
  · rw [State.reg_setRegFlag_flag, hf]
  · rw [State.reg_setRegFlag _ _ _ _ _ hx, if_pos rfl, hb]
  · rw [State.reg_setRegFlag _ _ _ _ _ hyF, if_neg hyx]

/-- R148, R150: the difference mod 256. -/
theorem toNat_byte_sub (a b : Byte) : (a - b).toNat = (256 + a.toNat - b.toNat) % 256 := by
  have hb : b.toNat < 256 := b.isLt
  rw [BitVec.toNat_sub]
  omega

/-- Settles O19: results and flags as numbers. -/
theorem addAndSubtractWithFlag : Obligations.AddAndSubtractWithFlag := by
  rintro x y s _ _ rfl rfl
  rw [exec_addReg, exec_sub, exec_subn]
  exact ⟨flaggedResult_setRegFlag s x (BitVec.toNat_add _ _) (toNat_flagByte_decide _),
    flaggedResult_setRegFlag s x (toNat_byte_sub _ _) (toNat_flagByte_decide _),
    flaggedResult_setRegFlag s x (toNat_byte_sub _ _) (toNat_flagByte_decide _)⟩

/-- Settles O20: shifts as division and multiplication by 2. -/
theorem shiftsWithFlag : Obligations.ShiftsWithFlag := by
  rintro x y s _ rfl
  rw [exec_shr, exec_shl]
  refine ⟨flaggedResult_setRegFlag s x ?_ (toNat_flagByte_lowBit _),
    flaggedResult_setRegFlag s x ?_ (toNat_flagByte_highBit _)⟩
  · rw [BitVec.toNat_ushiftRight, Nat.shiftRight_eq_div_pow, pow_one]; rfl
  · rw [BitVec.toNat_shiftLeft, Nat.shiftLeft_eq, pow_one]; rfl

end Sys2Proof.Machine
end

section
/-! The index register, the random byte, the timers, the key wait and CLS (44_index_memory.md R172, R173,
45_timers_keys_random.md, 46_display.md R210). -/

namespace Sys2Proof.Machine

open Sys2Proof.Claims

/-- Settles O22: I is written exactly when the sum fits. -/
theorem indexAddOrOverflow : Obligations.IndexAddOrOverflow := by
  rintro x s _ rfl
  exact ⟨fun hfits => execAddI_next.2 ⟨hfits, rfl⟩, fun hover => execAddI_fault.2 ⟨hover, rfl⟩⟩

/-- Settles O23: the font lies inside memory, so a glyph's address is exact in 16 bits. -/
theorem fontAddressOrFault : Obligations.FontAddressOrFault := by
  intro x s
  refine ⟨fun hdigit => ⟨_, execLdF_next.2 ⟨hdigit, rfl⟩, rfl, ?_⟩, fun hlarge => execLdF_fault.2 ⟨hlarge, rfl⟩⟩
  have hbase := s.cfg.fontBase.isLt
  rw [State.setIdx_idx, BitVec.toNat_ofNat]
  exact Nat.mod_eq_of_lt (by omega)

theorem exec_rnd (x : Nibble) (nn : Byte) (s : State) :
    exec (.rnd x nn) s = .next (s.setReg x (Config.freeByte s.draws &&& nn)).countDraw := rfl

/-- Settles O29: the free value is the byte. -/
theorem randomIsMasked : Obligations.RandomIsMasked := by
  intro x nn s
  refine ⟨Config.freeByte s.draws, _, exec_rnd x nn s, rfl, ?_⟩
  have hreg : (s.setReg x (Config.freeByte s.draws &&& nn)).countDraw.reg x = Config.freeByte s.draws &&& nn :=
    s.reg_setReg_self x _
  rw [hreg, BitVec.and_assoc, BitVec.and_not_self]
  exact BitVec.and_zero

theorem exec_ldVxDt (x : Nibble) (s : State) : exec (.ldVxDt x) s = .next (s.setReg x s.dt) := rfl

theorem exec_ldDtVx (x : Nibble) (s : State) : exec (.ldDtVx x) s = .next (s.setDt (s.reg x)) := rfl

theorem exec_ldStVx (x : Nibble) (s : State) : exec (.ldStVx x) s = .next (s.setSt (s.reg x)) := rfl

/-- Settles O30: one field update each. -/
theorem timerAccess : Obligations.TimerAccess := fun x s => ⟨exec_ldVxDt x s, exec_ldDtVx x s, exec_ldStVx x s⟩

theorem exec_cls (s : State) : exec .cls s = .next ((s.setDisp Display.blank).setRedraw true) := rfl

/-- Settles O32: the display becomes the blank one. -/
theorem clearBlanksTheDisplay : Obligations.ClearBlanksTheDisplay := fun s =>
  ⟨_, exec_cls s, rfl, Display.pixel_blank⟩

/-! ### The key wait -/

theorem State.mem_pressedKeys_iff_pressed {s : State} (k : Nibble) : k.toNat ∈ s.pressedKeys ↔ s.pressed k = true := by
  rw [State.mem_pressedKeys]
  exact ⟨fun ⟨_, h⟩ => h, fun h => ⟨k.isLt, h⟩⟩

theorem State.exists_pressed_of_mem {s : State} {n : Nat} (h : n ∈ s.pressedKeys) :
    ∃ k : Nibble, k.toNat = n ∧ s.pressed k = true := by
  obtain ⟨hlt, hdown⟩ := State.mem_pressedKeys.1 h
  exact ⟨BitVec.ofNatLT n hlt, BitVec.toNat_ofNatLT n hlt, hdown⟩

theorem State.pressedKeys_eq_nil {s : State} : s.pressedKeys = [] ↔ ∀ k, s.pressed k = false := by
  constructor
  · intro h k
    rw [← Bool.not_eq_true, ← State.mem_pressedKeys_iff_pressed, h]
    exact List.not_mem_nil
  · intro h
    refine List.eq_nil_iff_forall_not_mem.2 fun n hn => ?_
    obtain ⟨k, -, hk⟩ := State.exists_pressed_of_mem hn
    rw [h k] at hk
    cases hk

/-- The list of pressed keys rises, so its head is the minimum (R195). -/
theorem State.chosenKey_le_of_lowest {s : State} (hc : s.cfg.keyChoice = .lowest) {n : Nat} (hn : n ∈ s.pressedKeys) :
    s.chosenKey ≤ n := by
  have hsorted : s.pressedKeys.Pairwise (· < ·) := List.pairwise_lt_range.filter _
  have hhead : s.chosenKey = s.pressedKeys.headD 0 := by rw [State.chosenKey, hc]
  rw [hhead]
  cases hl : s.pressedKeys with
  | nil => exact Nat.zero_le _
  | cons k l =>
    rw [hl] at hn hsorted
    rcases List.mem_cons.1 hn with rfl | hn
    · exact le_rfl
    · exact le_of_lt ((List.pairwise_cons.1 hsorted).1 n hn)

theorem State.countKeyDraw_eq (s : State) : s.countKeyDraw = { s with draws := s.countKeyDraw.draws } := by
  unfold State.countKeyDraw
  split <;> rfl

/-- Settles O31: the key chosen is a member of the list of pressed keys, its head under the minimum. -/
theorem keyWait : Obligations.KeyWait := by
  intro x s
  constructor
  · intro hup
    exact execLdVxK_next.2 (.inl ⟨State.pressedKeys_eq_nil.2 hup, rfl⟩)
  · rintro ⟨k, hk⟩
    have hne : s.pressedKeys ≠ [] := List.ne_nil_of_mem ((State.mem_pressedKeys_iff_pressed k).2 hk)
    obtain ⟨c, hc, hdown⟩ := State.exists_pressed_of_mem (State.chosenKey_mem hne)
    refine ⟨_, execLdVxK_next.2 (.inr ⟨hne, rfl⟩), ?_, c, hdown, ?_, fun hlow j hj => ?_⟩
    · rw [State.countKeyDraw_eq]; rfl
    · rw [State.countKeyDraw_eq, hc]; rfl
    · rw [← Bool.not_eq_true, ← State.mem_pressedKeys_iff_pressed]
      intro hj'
      have := State.chosenKey_le_of_lowest hlow hj'
      omega

end Sys2Proof.Machine
end

section
/-! Stores and the loader (20_memory.md, 44_index_memory.md R174 to R177, 70_reset_and_hazards.md R272), and what the
canonical form of memory is good for (log 9). -/

namespace Sys2Proof.Machine

open Sys2Proof.Claims

theorem writable_iff {c : Config} {a : Nat} : Writable c a ↔ a < 4096 ∧ fontProtected c a = false := by
  rw [Writable, ← Bool.not_eq_true, fontProtected_iff]

/-- A store over writable addresses completes. -/
theorem State.storeBytes_of_writable {s : State} {a : Nat} {bs : List Byte}
    (h : ∀ k < bs.length, Writable s.cfg (a + k)) : ∃ t, s.storeBytes a bs = .ok t :=
  State.storeBytes_completes fun k hk => writable_iff.1 (h k hk)

/-- A store stops at the first address that may not be written, bounds before font (R51, R54, R237). -/
theorem State.storeBytes_first_unwritable {s : State} {a k : Nat} {bs : List Byte} (hk : k < bs.length)
    (hbelow : ∀ j < k, Writable s.cfg (a + j)) (hfirst : ¬ Writable s.cfg (a + k)) :
    s.storeBytes a bs =
      .error (if a + k < 4096 then .fontWrite (a + k) s.instrAddr else .memBounds (a + k) s.instrAddr) := by
  cases h : s.storeBytes a bs with
  | ok t => exact absurd (writable_iff.2 (State.storeBytes_ok_writable h k hk)) hfirst
  | error f =>
    obtain ⟨j, -, hjbelow, hj⟩ := State.storeBytes_error h
    have hjfirst : ¬ Writable s.cfg (a + j) := by
      rw [writable_iff]
      rcases hj with ⟨hout, -⟩ | ⟨-, hfont, -⟩
      · exact fun hw => absurd hw.1 (by omega)
      · simp [hfont]
    obtain rfl : j = k := by
      rcases Nat.lt_trichotomy j k with hlt | heq | hgt
      · exact absurd (hbelow j hlt) hjfirst
      · exact heq
      · exact absurd (writable_iff.2 (hjbelow k hgt)) hfirst
    rcases hj with ⟨hout, rfl⟩ | ⟨hin, -, rfl⟩
    · rw [if_neg (by omega)]
    · rw [if_pos hin]

/-! ### The decimal store -/

theorem length_decimalDigits (b : Byte) : (decimalDigits b).length = 3 := rfl

theorem toNat_ofNat_of_le_byte {n : Nat} (b : Byte) (h : n ≤ b.toNat) : (BitVec.ofNat 8 n : Byte).toNat = n := by
  have hb : b.toNat < 256 := b.isLt
  rw [BitVec.toNat_ofNat]
  exact Nat.mod_eq_of_lt (by omega)

/-- A stored decimal is its three digits in order, and no other byte changes (R174). -/
theorem State.byteAt_of_storeBytes_decimalDigits {s t : State} {a : Nat} {b : Byte}
    (h : s.storeBytes a (decimalDigits b) = .ok t) :
    (t.byteAt a).toNat = b.toNat / 100 ∧ (t.byteAt (a + 1)).toNat = b.toNat / 10 % 10 ∧
    (t.byteAt (a + 2)).toNat = b.toNat % 10 ∧ ∀ a', ¬ (a ≤ a' ∧ a' < a + 3) → t.byteAt a' = s.byteAt a' := by
  have hbytes := (State.storeBytes_ok h).2.1
  rw [length_decimalDigits] at hbytes
  refine ⟨?_, ?_, ?_, fun a' ha => by rw [hbytes, if_neg ha]⟩
  · rw [hbytes, if_pos (by omega), Nat.sub_self]
    exact toNat_ofNat_of_le_byte b (by omega)
  · rw [hbytes, if_pos (by omega), Nat.add_sub_cancel_left]
    exact toNat_ofNat_of_le_byte b (by omega)
  · rw [hbytes, if_pos (by omega), Nat.add_sub_cancel_left]
    exact toNat_ofNat_of_le_byte b (by omega)

/-- Settles O24: the store completes, or names the first address that may not be written. -/
theorem decimalStore : Obligations.DecimalStore := by
  rintro x s _ rfl
  refine ⟨fun hw => ?_, fun k hk hbelow hfirst => ?_⟩
  · obtain ⟨t, ht⟩ := State.storeBytes_of_writable (bs := decimalDigits (s.reg x)) hw
    exact ⟨t, finish_next.2 ht, (State.storeBytes_ok ht).1, State.byteAt_of_storeBytes_decimalDigits ht⟩
  · exact execLdB_fault.2 (State.storeBytes_first_unwritable hk hbelow hfirst)

/-! ### The bulk store -/

/-- A bulk store over writable addresses, as its answer and the bytes it leaves. -/
theorem exec_ldMemVx_of_writable {x : Nibble} {s : State} (hw : ∀ k ≤ x.toNat, Writable s.cfg (s.idx.toNat + k)) :
    ∃ t, exec (.ldMemVx x) s = .next t ∧ t = { s with mem := t.mem, idx := indexAfter s x } ∧
      (∀ y : Nibble, y.toNat ≤ x.toNat → t.byteAt (s.idx.toNat + y.toNat) = s.reg y) ∧
      ∀ a, ¬ (s.idx.toNat ≤ a ∧ a ≤ s.idx.toNat + x.toNat) → t.byteAt a = s.byteAt a := by
  have hlen := s.length_regsUpTo x
  obtain ⟨t, ht⟩ := State.storeBytes_of_writable (s := s) (a := s.idx.toNat) (bs := s.regsUpTo x)
    fun k hk => hw k (by omega)
  obtain ⟨hframe, hbytes, -⟩ := State.storeBytes_ok ht
  rw [hlen] at hbytes
  have hbytes' (a : Nat) : (t.setIdx (indexAfter s x)).byteAt a = t.byteAt a := rfl
  refine ⟨t.setIdx (indexAfter s x), execLdMemVx_of_storeBytes_ok ht, by rw [hframe]; rfl, fun y hy => ?_,
    fun a ha => ?_⟩
  · rw [hbytes', hbytes, if_pos (by omega), Nat.add_sub_cancel_left, State.getD_regsUpTo s x y hy]
  · rw [hbytes', hbytes, if_neg (by omega)]

/-- Settles O25: the store completes, or names the first address that may not be written. -/
theorem bulkStore : Obligations.BulkStore := fun x s =>
  ⟨exec_ldMemVx_of_writable, fun _ hk hbelow hfirst => execLdMemVx_fault.2
    (State.storeBytes_first_unwritable (by rw [State.length_regsUpTo]; omega) hbelow hfirst)⟩

/-- Settles O27: the load reads each address where the store left the register. -/
theorem storeThenLoadReproducesRegisters : Obligations.StoreThenLoadReproducesRegisters := by
  intro x s between hw
  obtain ⟨t, hstore, hframe, hbytes, -⟩ := exec_ldMemVx_of_writable hw
  have hin : s.idx.toNat + x.toNat < 4096 := (hw x.toNat le_rfl).1
  obtain ⟨u, hload, huframe, hregs⟩ := (bulkLoad x { t with v := between, idx := s.idx }).1 hin
  have hafter : indexAfter { t with v := between, idx := s.idx } x = indexAfter s x := by rw [hframe]; rfl
  refine ⟨t, u, hstore, hload, by rw [hframe], by rw [huframe, ← hafter], by rw [huframe], fun y => ?_⟩
  rw [hregs y]
  split
  next hy => exact hbytes y hy
  next hy => rfl

/-- Settles O28: the fetch reads the two lowest addresses of the store. -/
theorem storeIsSeenByTheNextFetch : Obligations.StoreIsSeenByTheNextFetch := by
  intro x s hx hpc hw
  obtain ⟨t, hstore, hframe, hbytes, -⟩ := exec_ldMemVx_of_writable hw
  have hin : s.idx.toNat + 1 < 4096 := (hw 1 hx).1
  have htpc : t.pc = s.idx := by rw [hframe, hpc]
  refine ⟨t, hstore, State.fetchBytes_ok.2 ⟨by rwa [htpc], ?_⟩⟩
  rw [htpc, ← hbytes 0x0#4 (Nat.zero_le _), ← hbytes 0x1#4 hx]
  rfl

/-- Settles O36: a completed store is one of its bytes, and the advance of I touches no byte. -/
theorem storesChangeOnlyTheirBytes : Obligations.StoresChangeOnlyTheirBytes := by
  intro x s t
  refine ⟨fun h => ⟨exec_frame h, ?_⟩, fun h => ⟨exec_frame h, fun a ha => ?_⟩⟩
  · exact (State.byteAt_of_storeBytes_decimalDigits (execLdB_next h).1).2.2.2
  · obtain ⟨m, hstore, ht⟩ := execLdMemVx_next h
    have hbyte : (s.setMem m).byteAt a = s.byteAt a := by
      rw [(State.storeBytes_ok hstore).2.1, if_neg (by rwa [State.length_regsUpTo])]
    obtain ⟨-, rfl⟩ | ⟨-, rfl⟩ := ht <;> exact hbyte

/-! ### The loader -/

theorem State.placeByte_frame (s : State) (a : Nat) (b : Byte) : s.placeByte a b = s.setMem (s.placeByte a b).mem := by
  unfold State.placeByte
  split <;> rfl

theorem State.placeBytes_frame (s : State) (a : Nat) (bs : List Byte) :
    s.placeBytes a bs = s.setMem (s.placeBytes a bs).mem := by
  induction bs generalizing s a with
  | nil => rfl
  | cons b bs ih =>
    rw [State.placeBytes, ih, s.placeByte_frame]
    rfl

theorem State.byteAt_placeByte {s : State} {a : Nat} (ha : a < 4096) (b : Byte) (a' : Nat) :
    (s.placeByte a b).byteAt a' = if a' = a then b else s.byteAt a' := by
  rw [State.placeByte, if_pos ha, State.byteAt_setMem_write]

/-- Bytes placed inside memory are read back in order, and no other address changes. -/
theorem State.byteAt_placeBytes {s : State} {a : Nat} {bs : List Byte} (h : a + bs.length ≤ 4096) (a' : Nat) :
    (s.placeBytes a bs).byteAt a' = if a ≤ a' ∧ a' < a + bs.length then bs.getD (a' - a) 0 else s.byteAt a' := by
  induction bs generalizing s a with
  | nil => rw [if_neg (by simp)]; rfl
  | cons b bs ih =>
    rw [List.length_cons] at h ⊢
    rw [State.placeBytes, ih (by omega), State.byteAt_placeByte (by omega)]
    rcases Nat.lt_trichotomy a' a with hlt | rfl | hgt
    · rw [if_neg (by omega), if_neg (by omega), if_neg (by omega)]
    · rw [if_neg (by omega), if_pos rfl, if_pos (by omega), Nat.sub_self]
      rfl
    · obtain ⟨k, rfl⟩ : ∃ k, a' = a + 1 + k := ⟨a' - (a + 1), by omega⟩
      rw [if_neg (show ¬ a + 1 + k = a by omega), Nat.add_sub_cancel_left, show a + 1 + k - a = k + 1 by omega,
        List.getD_cons_succ]
      congr 1
      simp only [eq_iff_iff]
      omega

/-- Settles O2: the loader is `State.placeBytes` at PROGRAM_ORIGIN. -/
theorem romLoaderCopiesVerbatim : Obligations.RomLoaderCopiesVerbatim := fun s rom hfits =>
  ⟨s.placeBytes_frame _ rom, State.byteAt_placeBytes hfits⟩

/-! ### The canonical form -/

theorem Memory.lookup_eq_some {m : Memory} (hm : m.Pairwise fun p q => p.1 < q.1) {a : Nat} {b : Byte} :
    Memory.lookup m a = some b ↔ (a, b) ∈ m := by
  induction m with
  | nil => simp [Memory.lookup]
  | cons p m ih =>
    obtain ⟨k, b'⟩ := p
    obtain ⟨hhead, htail⟩ := List.pairwise_cons.1 hm
    rw [Memory.lookup, List.mem_cons, Prod.mk.injEq]
    split
    next hk =>
      subst hk
      have hnot : (k, b) ∉ m := fun hmem => absurd (hhead _ hmem) (lt_irrefl k)
      simp [hnot, eq_comm]
    next hk => simp [ih htail, Ne.symm hk]

/-- A canonical memory lists exactly the bytes inside memory that differ from the construction contents. -/
theorem Memory.mem_iff_read {c : Config} {m : Memory} (hm : m.wf c) {a : Nat} {b : Byte} :
    (a, b) ∈ m ↔ a < 4096 ∧ m.read c a = b ∧ b ≠ resetByte c a := by
  obtain ⟨hsorted, hcells⟩ := hm
  constructor
  · intro hmem
    obtain ⟨hlt, hne⟩ := hcells _ hmem
    exact ⟨hlt, by rw [Memory.read, (Memory.lookup_eq_some hsorted).2 hmem]; rfl, hne⟩
  · rintro ⟨-, hread, hne⟩
    rw [← Memory.lookup_eq_some hsorted]
    cases h : Memory.lookup m a with
    | none => exact absurd (by rw [← hread, Memory.read, h]; rfl) hne
    | some b' => rw [Memory.read, h] at hread; exact congrArg some hread

/-- Settles O55: canonical memories that read alike list the same cells, in the one rising order. -/
theorem canonicalMemoriesThatReadAlikeAreEqual : Obligations.CanonicalMemoriesThatReadAlikeAreEqual := by
  intro c m m' hm hm' halike
  have : Std.Irrefl fun p q : Host.Cell => p.1 < q.1 := ⟨fun p => lt_irrefl p.1⟩
  have : Std.Antisymm fun p q : Host.Cell => p.1 < q.1 := ⟨fun _ _ h h' => absurd h' (lt_asymm h)⟩
  refine hm.1.eq_of_mem_iff hm'.1 fun ⟨a, b⟩ => ?_
  rw [Memory.mem_iff_read hm, Memory.mem_iff_read hm']
  exact and_congr_right fun ha => by rw [halike a ha]

end Sys2Proof.Machine
end

section
/-! DRW (46_display.md R211): the rows the model draws are the sprite's bits. -/

namespace Sys2Proof.Machine

open Sys2Proof.Claims

/-- The rows drawn from row 0 on are the sprite: bit 7 of a row is its column 0. -/
theorem spriteRow_iff_spriteBit (s : State) (x y n : Nibble) (c : Fin 64) (r : Fin 32) :
    s.spriteRow ((s.reg x).toNat % 64) ((s.reg y).toNat % 32) 0 n.toNat c r ↔ SpriteBit s x y n c r := by
  have hmsb (b : Byte) (k : Nat) (hk : k < 8) : b.getMsbD k = b.getLsbD (7 - k) := by
    simp [BitVec.getMsbD, hk]
  unfold State.spriteRow rowBit SpriteBit
  constructor
  · rintro ⟨hr, hr', hc, hc', hbit⟩
    exact ⟨hc, hc', hr, hr', by rwa [hmsb _ _ (by omega)] at hbit⟩
  · rintro ⟨hc, hc', hr, hr', hbit⟩
    exact ⟨hr, hr', hc, hc', by rwa [hmsb _ _ (by omega)]⟩

/-- A readable sprite is drawn: what DRW answers, with the pixels and the collision in terms of the sprite's bits. -/
theorem exec_drw_of_readable {x y n : Nibble} {s : State} (h : SpriteReadable s y n) : ∃ d hit,
    exec (.drw x y n) s = .next (((s.setDisp d).setReg flagReg (flagByte hit)).setRedraw true) ∧
    (∀ c r, (d.pixel c r = true ↔ ¬ (s.disp.pixel c r = true ↔ SpriteBit s x y n c r))) ∧
    (hit = true ↔ ∃ c r, SpriteBit s x y n c r ∧ s.disp.pixel c r = true) := by
  obtain ⟨⟨d, hit⟩, hdraw⟩ := State.drawRows_completes (s := s) (sx := (s.reg x).toNat % 64)
    (sy := (s.reg y).toNat % 32) (k := 0) (n := n.toNat) (acc := (s.disp, false))
    fun j hj hrow => by rw [Nat.zero_add] at hrow ⊢; exact h j hj hrow
  obtain ⟨hpixels, hhit⟩ := State.drawRows_ok hdraw
  simp only [spriteRow_iff_spriteBit, Bool.false_eq_true, false_or] at hpixels hhit
  exact ⟨d, hit, execDrw_next.2 ⟨d, hit, hdraw, rfl⟩, hpixels, hhit⟩

/-- DRW stops at the first unclipped row outside memory. -/
theorem exec_drw_first_unreadable {x y n : Nibble} {s : State} {k : Nat} (hk : k < n.toNat)
    (hrow : (s.reg y).toNat % 32 + k < 32) (hout : 4096 ≤ s.idx.toNat + k) (hin : ∀ j < k, s.idx.toNat + j < 4096) :
    exec (.drw x y n) s = .fault (.memBounds (s.idx.toNat + k) (addrOf s)) := by
  refine execDrw_fault.2 ?_
  cases hdraw : s.drawRows ((s.reg x).toNat % 64) ((s.reg y).toNat % 32) 0 (s.disp, false) n.toNat with
  | ok out =>
    have := State.drawRows_ok_inside hdraw k hk (by omega)
    omega
  | error f =>
    obtain ⟨j, -, -, hjout, hjin, rfl⟩ := State.drawRows_error hdraw
    obtain rfl : j = k := by
      rcases Nat.lt_trichotomy j k with hlt | heq | hgt
      · have := hin j hlt
        omega
      · exact heq
      · have := hjin k hgt
        omega
    rw [Nat.zero_add]
    rfl

theorem State.reg_flag_of_drawn (s : State) (d : Display) (hit : Bool) :
    (((s.setDisp d).setReg flagReg (flagByte hit)).setRedraw true).reg 0xF#4 = flagByte hit :=
  (s.setDisp d).reg_setReg_self flagReg _

theorem flagByte_eq_one {f : Bool} : flagByte f = 1#8 ↔ f = true := by
  cases f <;> decide

/-- Settles O33: the sprite is drawn, or a row of it is out of memory. -/
theorem drawXorsTheClippedSprite : Obligations.DrawXorsTheClippedSprite := by
  intro x y n s
  refine ⟨fun h => ?_, fun k => exec_drw_first_unreadable⟩
  obtain ⟨d, hit, hexec, hpixels, hhit⟩ := exec_drw_of_readable (x := x) h
  refine ⟨_, hexec, by rw [State.reg_flag_of_drawn]; rfl, hpixels, fun ⟨c, r, hlit, hbit⟩ => ?_, fun hnone => ?_⟩
  · rw [State.reg_flag_of_drawn, flagByte_eq_one]
    exact hhit.2 ⟨c, r, hbit, hlit⟩
  · have hmiss : hit = false := by
      rw [← Bool.not_eq_true, hhit]
      exact fun ⟨c, r, hbit, hlit⟩ => hnone ⟨c, r, hlit, hbit⟩
    rw [State.reg_flag_of_drawn, hmiss]
    rfl

/-- Settles O34: the second draw finds the same sprite bits, and XOR with them twice is the identity. -/
theorem drawTwiceRestoresTheDisplay : Obligations.DrawTwiceRestoresTheDisplay := by
  intro x y n s h
  obtain ⟨d, hit, hfirst, hpixels, -⟩ := exec_drw_of_readable (x := x) h
  obtain ⟨d', hit', hsecond, hpixels', hhit'⟩ := exec_drw_of_readable (x := x) (y := y) (n := n)
    (s := { ((s.setDisp d).setReg flagReg (flagByte hit)).setRedraw true with v := s.v }) h
  change ∀ c r, (d'.pixel c r = true ↔ ¬ (d.pixel c r = true ↔ SpriteBit s x y n c r)) at hpixels'
  change hit' = true ↔ ∃ c r, SpriteBit s x y n c r ∧ d.pixel c r = true at hhit'
  refine ⟨_, _, hfirst, hsecond, ?_, ?_⟩
  · refine Display.ext_pixel fun c r => ?_
    change d'.pixel c r = s.disp.pixel c r
    rw [Bool.eq_iff_iff, hpixels', hpixels]
    tauto
  · rw [State.reg_flag_of_drawn, flagByte_eq_one, hhit']
    refine exists_congr fun c => exists_congr fun r => and_congr_right fun hbit => ?_
    rw [hpixels, ← Bool.not_eq_true, iff_true_right hbit]

end Sys2Proof.Machine
end

section
/-! One step (30_encoding.md R72, R78, 60_exceptions.md R254): what it is in each phase, and the two kinds of move it
can be. -/

namespace Sys2Proof.Machine

open Sys2Proof.Claims

/-! ### The step in each phase -/

section
variable {s : State} (hs : s.status = .running)
include hs

theorem step_poll (hp : s.phase = .poll) : step s = .next s.pollKeys.startBurst := by
  rw [step, hs]; simp only [runPhase, hp]

theorem step_burst {k : Nat} (hp : s.phase = .burst (k + 1)) :
    step s = instrStep (s.setPhase (.burst k)).countStep := by
  rw [step, hs]; simp only [runPhase, hp]

theorem step_tick (hp : s.phase = .burst 0) : step s = .next (s.tick.setPhase .present) := by
  rw [step, hs]; simp only [runPhase, hp]

theorem step_present (hp : s.phase = .present) : step s = .next (s.present.setPhase .audio) := by
  rw [step, hs]; simp only [runPhase, hp]

theorem step_audio (hp : s.phase = .audio) : step s = .next (s.driveGate.setPhase .poll) := by
  rw [step, hs]; simp only [runPhase, hp]

end

/-! ### The instruction step -/

theorem wordAtPc_iff {s : State} {w : Word} :
    WordAtPc s w ↔ w = wordOfBytes (s.byteAt s.pc.toNat) (s.byteAt (s.pc.toNat + 1)) := by
  rw [WordAtPc, ← toNat_wordOfBytes, BitVec.toNat_inj]

/-- There is always one word at pc; whether it can be fetched is another question. -/
theorem exists_wordAtPc (s : State) : ∃ w, WordAtPc s w := ⟨_, wordAtPc_iff.2 rfl⟩

theorem wordAtPc_unique {s : State} {w w' : Word} (h : WordAtPc s w) (h' : WordAtPc s w') : w = w' :=
  (wordAtPc_iff.1 h).trans (wordAtPc_iff.1 h').symm

/-- Settles O8: the decoder reads the word of the two fetched bytes. -/
theorem fetchIsBigEndian : Obligations.FetchIsBigEndian := fun _ h =>
  ⟨_, _, State.fetchBytes_ok.2 ⟨h, rfl⟩, decode_pair _ _ [], wordAtPc_iff.2 rfl⟩

/-- Settles O10: the fetch is the first thing an instruction step does. -/
theorem fetchOutsideMemoryFaults : Obligations.FetchOutsideMemoryFaults := fun s k hs hp hout =>
  (step_burst hs hp).trans (instrStep_outside (s := (s.setPhase (.burst k)).countStep) hout)

/-- An instruction step with both bytes inside memory does what the word at pc decodes to, with pc past it. -/
theorem step_inside {s : State} {k : Nat} {w : Word} (hs : s.status = .running) (hp : s.phase = .burst (k + 1))
    (hin : s.pc.toNat + 1 < 4096) (hw : WordAtPc s w) : step s = runDecoded (decodeWord w) (executeState s k) := by
  have hfetch := State.fetchBytes_ok (s := (s.setPhase (.burst k)).countStep).2 ⟨hin, rfl⟩
  rw [step_burst hs hp, instrStep, hfetch, wordAtPc_iff.1 hw]
  rfl

/-- A is the address the step started at (R13). -/
theorem instrAddr_executeState (s : State) (k : Nat) : (executeState s k).instrAddr = s.pc :=
  BitVec.add_sub_cancel _ _

/-- Settles O9: the two answers of the decoder. -/
theorem stepRunsTheDecodedInstruction : Obligations.StepRunsTheDecodedInstruction := by
  intro s k w hs hp hin hw
  rw [step_inside hs hp hin hw]
  refine ⟨fun i hi => by rw [hi]; rfl, fun hunknown => ?_⟩
  rw [(unknownWordsAreTheListedOnes w).1 hunknown, runDecoded, State.reportUnknown, instrAddr_executeState]
  rfl

/-! ### The two kinds of move -/

/-- The state s with the components that the key poll, the tick, the present and the audio gate may write taken
from t. -/
def moved (s t : State) : State :=
  { s with dt := t.dt, st := t.st, keys := t.keys, redraw := t.redraw, log := t.log, phase := t.phase,
           keyQueue := t.keyQueue, shown := t.shown, presents := t.presents, gate := t.gate, draws := t.draws }

theorem pollKeys_startBurst_moved (s : State) : s.pollKeys.startBurst = moved s s.pollKeys.startBurst := by
  rw [State.pollKeys_eq]; rfl

theorem present_moved (s : State) : s.present.setPhase .audio = moved s (s.present.setPhase .audio) := by
  unfold State.present
  split <;> rfl

theorem driveGate_moved (s : State) : s.driveGate.setPhase .poll = moved s (s.driveGate.setPhase .poll) := by
  unfold State.driveGate
  split <;> rfl

/-- The step from s to t runs one instruction, or reports an unknown word, with k steps of the burst left after it. -/
def InstructionMove (s t : State) (k : Nat) : Prop :=
  s.phase = .burst (k + 1) ∧ s.pc.toNat + 1 < 4096 ∧ ∃ w, WordAtPc s w ∧
    ((∃ i, decodeWord w = .instr i ∧ exec i (executeState s k) = .next t) ∨ t = (executeState s k).reportUnknown w)

/-- A completed step is an instruction's, or one of the sequencer's other moves. -/
theorem step_move {s t : State} (h : step s = .next t) :
    (∃ k, InstructionMove s t k) ∨ ((∀ k, s.phase ≠ .burst (k + 1)) ∧ t = moved s t) := by
  obtain ⟨hs, hmove⟩ := step_next h
  rcases hmove with ⟨hp, rfl⟩ | ⟨k, hp, hinstr⟩ | ⟨hp, rfl⟩ | ⟨hp, rfl⟩ | ⟨hp, rfl⟩
  · exact .inr ⟨by simp [hp], pollKeys_startBurst_moved s⟩
  · have hin : s.pc.toNat + 1 < 4096 := (instrStep_next hinstr).1
    obtain ⟨w, hw⟩ := exists_wordAtPc s
    refine .inl ⟨k, hp, hin, w, hw, ?_⟩
    rw [step_inside hs hp hin hw] at h
    rcases decodeWord_cases w with ⟨⟨i, hi, -⟩, -⟩ | ⟨hunknown, -⟩
    · rw [hi] at h
      exact .inl ⟨i, hi, h⟩
    · rw [hunknown] at h
      cases h
      exact .inr rfl
  · exact .inr ⟨by simp [hp], rfl⟩
  · exact .inr ⟨by simp [hp], present_moved s⟩
  · exact .inr ⟨by simp [hp], driveGate_moved s⟩

/-! ### Stopping -/

/-- Settles O51: only the phase of a burst with steps to go is not one of the completing moves. -/
theorem onlyInstructionStepsStop : Obligations.OnlyInstructionStepsStop := by
  intro s hs hp
  cases hphase : s.phase with
  | poll => exact ⟨_, step_poll hs hphase, by rw [pollKeys_startBurst_moved]; exact hs⟩
  | burst k =>
    cases k with
    | zero => exact ⟨_, step_tick hs hphase, hs⟩
    | succ k => exact absurd hphase (hp k)
  | present => exact ⟨_, step_present hs hphase, by rw [present_moved]; exact hs⟩
  | audio => exact ⟨_, step_audio hs hphase, by rw [driveGate_moved]; exact hs⟩

/-- R231: every fault of an instruction carries A, so pc after it is the pc the instruction executed with. -/
theorem FaultCause.pcAfter_eq {i : Instr} {s : State} {f : Fault} (h : FaultCause i s f) : f.pcAfter = s.pc := by
  have hA : addrOf s + 2#16 = s.pc := s.instrAddr_add_two
  cases f with
  | fetchBounds pc => exact h.elim
  | memBounds a at' => obtain ⟨-, rfl, -⟩ := h; exact hA
  | stackUnderflow at' => obtain ⟨-, -, rfl⟩ := h; exact hA
  | stackOverflow at' => obtain ⟨-, -, rfl⟩ := h; exact hA
  | indexOverflow v at' => obtain ⟨-, rfl, -⟩ := h; exact hA
  | keyRange v at' => obtain ⟨-, rfl, -⟩ := h; exact hA
  | fontDigit v at' => obtain ⟨-, rfl, -⟩ := h; exact hA
  | fontWrite a at' => obtain ⟨-, -, -, rfl, -⟩ := h; exact hA

theorem step_fault_pcAfter {s : State} {f : Fault} {k : Nat} (hs : s.status = .running)
    (hp : s.phase = .burst (k + 1)) (h : step s = .fault f) :
    f.pcAfter = if s.pc.toNat + 1 < 4096 then s.pc + 2#16 else s.pc := by
  split
  next hin =>
    obtain ⟨w, hw⟩ := exists_wordAtPc s
    rw [step_inside hs hp hin hw] at h
    rcases decodeWord_cases w with ⟨⟨i, hi, -⟩, -⟩ | ⟨hunknown, -⟩
    · rw [hi] at h
      exact (exec_fault h).pcAfter_eq
    · rw [hunknown] at h
      cases h
  next hout =>
    rw [fetchOutsideMemoryFaults s k hs hp (by omega)] at h
    cases h
    rfl

theorem step_faulted {s : State} {f : Fault} (hs : s.status = .faulted f) : step s = .fault f := by
  rw [step, hs]; rfl

theorem step_refused {s : State} {r : Refusal} (hs : s.status = .refused r) : step s = .refused r := by
  rw [step, hs]; rfl

/-- Settles O52: the status alone decides, and each fault carries the address pc follows from. -/
theorem stoppedBlockStaysStopped : Obligations.StoppedBlockStaysStopped := fun s =>
  ⟨fun _ => step_faulted, fun _ => step_refused, fun _ _ h => (exec_fault h).pcAfter_eq,
    fun _ _ => step_fault_pcAfter, fun f m v d => ⟨_, rfl, rfl, step_faulted (s.afterFault_status f m v d), rfl⟩⟩

end Sys2Proof.Machine
end

section
/-! The moves of the timing controller between bursts: tick, present, audio gate and key poll (60_exceptions.md R240,
R250 to R256). -/

namespace Sys2Proof.Machine

open Sys2Proof.Claims

/-- R250: one less, and 0 stays 0 (D15), as subtraction of numbers. -/
theorem tickTimer_eq (b : Byte) : tickTimer b = BitVec.ofNat 8 (b.toNat - 1) := by
  have hb : b.toNat < 256 := b.isLt
  apply BitVec.eq_of_toNat_eq
  unfold tickTimer
  split
  next h => rw [h]; rfl
  next h =>
    have hpos : b.toNat ≠ 0 := fun e => h (BitVec.eq_of_toNat_eq e)
    rw [BitVec.toNat_sub, BitVec.toNat_ofNat, BitVec.toNat_ofNat]
    omega

theorem toNat_tickTimer (b : Byte) : (tickTimer b).toNat = b.toNat - 1 := by
  have hb : b.toNat < 256 := b.isLt
  rw [tickTimer_eq, BitVec.toNat_ofNat]
  omega

/-- Settles O42: the tick is a subtraction that stops at 0, for each timer. -/
theorem tickDecrementsBothTimers : Obligations.TickDecrementsBothTimers := by
  intro s hs hp
  rw [step_tick hs hp, State.tick, tickTimer_eq, tickTimer_eq]
  rfl

/-! ### The present and the audio gate -/

theorem State.present_of_redraw {s : State} (h : s.redraw = true) :
    s.present = (s.showFrame.setRedraw false).deviceCalled .display := if_pos h

theorem State.present_of_no_redraw {s : State} (h : s.redraw = false) : s.present = s :=
  if_neg (by rw [h]; exact Bool.false_ne_true)

/-- Settles O43: the two cases of the request. -/
theorem presentOncePerRequest : Obligations.PresentOncePerRequest := by
  intro s hs hp
  refine ⟨_, step_present hs hp, ?_⟩
  cases h : s.redraw with
  | true =>
    rw [State.present_of_redraw h]
    simp
  | false =>
    rw [State.present_of_no_redraw h]
    simp [h]

theorem State.audioOn_eq (s : State) : s.audioOn = decide (s.st ≠ 0#8) := by
  rw [State.audioOn, Bool.eq_iff_iff, bne_iff_ne, decide_eq_true_iff]

theorem State.driveGate_of_transition {s : State} (h : s.gate ≠ s.audioOn) :
    s.driveGate = (s.setGate s.audioOn).deviceCalled .audio := if_neg (Ne.symm h)

theorem State.driveGate_of_steady {s : State} (h : s.gate = s.audioOn) : s.driveGate = s := if_pos h.symm

/-- The present of R255 with the report of R240. -/
theorem present_setPhase_eq (s : State) :
    s.present.setPhase .audio =
      { s with redraw := false, shown := s.present.shown, presents := s.present.presents, phase := .audio,
               draws := s.present.draws,
               log := s.log ++
                 if s.redraw = true ∧ Config.freeDeviceFails s.draws = true then [.deviceFailure .display]
                 else [] } := by
  cases h : s.redraw with
  | true => rw [State.present_of_redraw h]; cases hf : Config.freeDeviceFails s.draws <;> simp [State.setPhase, hf]
  | false => rw [State.present_of_no_redraw h]; simp [State.setPhase, h]

/-- The audio gate of R252 with the report of R240. -/
theorem driveGate_setPhase_eq (s : State) :
    s.driveGate.setPhase .poll =
      { s with gate := decide (s.st ≠ 0#8), phase := .poll, draws := s.driveGate.draws,
               log := s.log ++
                 if s.gate ≠ decide (s.st ≠ 0#8) ∧ Config.freeDeviceFails s.draws = true then [.deviceFailure .audio]
                 else [] } := by
  rw [← State.audioOn_eq]
  by_cases h : s.gate = s.audioOn
  · rw [State.driveGate_of_steady h]; simp [State.setPhase, h]
  · rw [State.driveGate_of_transition h]; cases hf : Config.freeDeviceFails s.draws <;> simp [State.setPhase, h, hf]

/-- Settles O44: the report is there exactly when the operation is called and fails. -/
theorem deviceFailuresAreOnlyLogged : Obligations.DeviceFailuresAreOnlyLogged := by
  rintro s _ hs rfl
  exact ⟨fun hp => ⟨_, step_present hs hp, present_setPhase_eq s⟩,
    fun hp => ⟨_, step_audio hs hp, driveGate_setPhase_eq s⟩⟩

theorem State.present_presents (s : State) : s.present.presents = s.presents + if s.redraw then 1 else 0 := by
  cases h : s.redraw with
  | true => rw [State.present_of_redraw h]; rfl
  | false => rw [State.present_of_no_redraw h]; rfl

/-- A run goes on from the state its first step leads to. -/
theorem run_succ_of_next (M : Host.Core) {s t : M.State} {k : Nat} (h : M.step s = .next t) :
    M.run (k + 1) s = M.run k t := by
  simp only [Host.Core.run, h]

/-- Settles O47: the tick, the present and the gate, one after the other. -/
theorem iterationEndsWithOneTick : Obligations.IterationEndsWithOneTick := by
  intro s hs hp
  have hs' : ((s.tick.setPhase .present).present.setPhase .audio).status = .running := by rw [present_moved]; exact hs
  have hrun : Host.Core.run core 3 s =
      .next (((s.tick.setPhase .present).present.setPhase .audio).driveGate.setPhase .poll) :=
    calc Host.Core.run core 3 s
      _ = Host.Core.run core 2 (s.tick.setPhase .present) := run_succ_of_next core (step_tick hs hp)
      _ = Host.Core.run core 1 ((s.tick.setPhase .present).present.setPhase .audio) :=
        run_succ_of_next core (step_present (s := s.tick.setPhase .present) hs rfl)
      _ = Host.Core.run core 0 (((s.tick.setPhase .present).present.setPhase .audio).driveGate.setPhase .poll) :=
        run_succ_of_next core (step_audio hs' rfl)
  refine ⟨_, hrun, ?_⟩
  rw [driveGate_setPhase_eq, present_setPhase_eq]
  exact ⟨rfl, toNat_tickTimer _, toNat_tickTimer _, rfl, State.present_presents _, rfl, rfl, rfl, rfl, rfl, rfl, rfl,
    rfl⟩

/-! ### The key poll -/

section
variable (s : State)

@[simp] theorem State.startBurst_keys : s.startBurst.keys = s.keys := rfl
@[simp] theorem State.startBurst_keyQueue : s.startBurst.keyQueue = s.keyQueue := rfl
@[simp] theorem State.countDraw_pressed (k : Nibble) : s.countDraw.pressed k = s.pressed k := rfl
@[simp] theorem State.setKeyQueue_pressed (q : List KeyEvent) (k : Nibble) :
    (s.setKeyQueue q).pressed k = s.pressed k := rfl
@[simp] theorem State.startBurst_pressed (k : Nibble) : s.startBurst.pressed k = s.pressed k := rfl

end

theorem State.pollKeys_of_empty {s : State} (h : s.keyQueue ++ Config.freeEvents s.draws = []) :
    s.pollKeys = (s.setKeyQueue []).countDraw := by
  rw [State.pollKeys, h]

theorem State.pollKeys_of_event {s : State} {e : KeyEvent} {q : List KeyEvent}
    (h : s.keyQueue ++ Config.freeEvents s.draws = e :: q) :
    s.pollKeys = ((s.applyKeyEvent e).setKeyQueue q).countDraw := by
  rw [State.pollKeys, h]

theorem State.pressed_setKeys_set (s : State) (c k : Nibble) (b : Bool) :
    (s.setKeys (s.keys.set c.toNat b)).pressed k = if k = c then b else s.pressed k := by
  simp only [State.pressed, State.setKeys_keys, Vector.getElem_set, BitVec.toNat_inj, eq_comm]

theorem State.applyKeyEvent_press {s : State} {p : Nat} {c : Nibble} (h : keyCodeOf s.cfg p = some c) :
    s.applyKeyEvent (.press p) = s.setKeys (s.keys.set c.toNat true) := by
  simp only [State.applyKeyEvent, h]

theorem State.applyKeyEvent_release {s : State} {p : Nat} {c : Nibble} (h : keyCodeOf s.cfg p = some c) :
    s.applyKeyEvent (.release p) = s.setKeys (s.keys.set c.toNat false) := by
  simp only [State.applyKeyEvent, h]

theorem State.applyKeyEvent_unmapped {s : State} {e : KeyEvent} {p : Nat} (he : e = .press p ∨ e = .release p)
    (h : keyCodeOf s.cfg p = none) : s.applyKeyEvent e = s := by
  rcases he with rfl | rfl <;> simp only [State.applyKeyEvent, h]

/-- Settles O46: the queue is empty, or its oldest event is applied. -/
theorem queueIsDrainedInOrder : Obligations.QueueIsDrainedInOrder := by
  intro s hs hp
  refine ⟨_, Config.freeEvents s.draws, step_poll hs hp, ?_, ⟨_, rfl⟩, ?_⟩
  · cases h : s.keyQueue ++ Config.freeEvents s.draws with
    | nil =>
      rw [State.pollKeys_of_empty h]
      exact .inl (by simp)
    | cons e q =>
      rw [State.pollKeys_of_event h]
      exact .inr ⟨e, by simp⟩
  · rw [State.pollKeys_eq]; rfl

/-- Settles O45: the oldest event decides at a poll, and no other move has the keys in its frame. -/
theorem keysChangeByNotificationsOnly : Obligations.KeysChangeByNotificationsOnly := by
  refine ⟨fun s hs hp => ⟨_, Config.freeEvents s.draws, step_poll hs hp, fun h => ?_, fun e q h => ?_⟩,
    fun _ _ _ => exec_keys, fun s t hp h => ?_⟩
  · rw [State.pollKeys_of_empty h]; simp
  · have hpressed (k : Nibble) : s.pollKeys.startBurst.pressed k = (s.applyKeyEvent e).pressed k := by
      rw [State.pollKeys_of_event h]; simp
    refine ⟨fun p c he hc k => ?_, fun p c he hc k => ?_, fun p he hc => ?_⟩
    · rw [hpressed, he, State.applyKeyEvent_press hc, State.pressed_setKeys_set]
    · rw [hpressed, he, State.applyKeyEvent_release hc, State.pressed_setKeys_set]
    · rw [State.pollKeys_of_event h, State.applyKeyEvent_unmapped he hc]; simp
  · obtain ⟨-, ⟨hpoll, -⟩ | ⟨k, -, hinstr⟩ | ⟨-, rfl⟩ | ⟨-, rfl⟩ | ⟨-, rfl⟩⟩ := step_next h
    · exact absurd hpoll hp
    · obtain ⟨-, ⟨i, -, hexec⟩ | ⟨w, -, rfl⟩⟩ := instrStep_next hinstr
      · have hkeys := exec_keys hexec
        exact hkeys
      · rfl
    · rfl
    · rw [present_setPhase_eq]
    · rw [driveGate_setPhase_eq]

end Sys2Proof.Machine
end

section
/-! What every step keeps: each invariant is shown for the instructions and holds for the other moves because its
components are not in their frame. -/

namespace Sys2Proof.Machine

open Sys2Proof.Claims

/-- Settles O53: the configuration is in no frame. -/
theorem configurationIsImmutable : Obligations.ConfigurationIsImmutable := by
  intro s t h
  rcases step_move h with ⟨k, -, -, w, -, ⟨i, -, hexec⟩ | rfl⟩ | ⟨-, ht⟩
  · exact (exec_cfg hexec :)
  · rfl
  · rw [ht]; rfl

/-! ### Memory -/

/-- The instructions that store do so inside memory, and the others keep memory. -/
theorem exec_mem_wf {i : Instr} {s t : State} (hwf : s.mem.wf s.cfg) (h : exec i s = .next t) : t.mem.wf t.cfg := by
  cases i with
  | ldB x => exact (State.storeBytes_ok (execLdB_next h).1).2.2 hwf
  | ldMemVx x =>
    obtain ⟨m, hstore, ht⟩ := execLdMemVx_next h
    have hm : m.wf s.cfg := (State.storeBytes_ok hstore).2.2 hwf
    obtain ⟨-, rfl⟩ | ⟨-, rfl⟩ := ht <;> exact hm
  | _ => rw [exec_mem h (by simp) (by simp), exec_cfg h]; exact hwf

/-- Settles O54: memory is in the frame of the two stores only, and they keep the form. -/
theorem memoryStaysCanonical : Obligations.MemoryStaysCanonical := by
  intro s t hwf h
  rcases step_move h with ⟨k, -, -, w, -, ⟨i, -, hexec⟩ | rfl⟩ | ⟨-, ht⟩
  · exact exec_mem_wf (s := executeState s k) hwf hexec
  · exact hwf
  · rw [ht]; exact hwf

/-! ### The stack -/

theorem exec_stackFits {i : Instr} {s t : State} (hfits : s.stackFits) (h : exec i s = .next t) : t.stackFits := by
  unfold State.stackFits
  rw [exec_cfg h]
  intro d hd
  have hlen : s.stack.length ≤ d := hfits d hd
  cases i with
  | call nnn =>
    obtain ⟨hroom, rfl⟩ := execCall_next.1 h
    have hlt : s.stack.length < d := State.stackHasRoom_iff.1 hroom d hd
    simpa using hlt
  | ret =>
    obtain ⟨l, w, hs, rfl⟩ := execRet_next.1 h
    rw [hs, List.length_append, List.length_singleton] at hlen
    simp only [State.setPc_stack, State.setStack_stack]
    omega
  | _ => rw [exec_stack h (by simp) (by simp)]; exact hlen

/-- Settles O56: the stack grows by CALL only, and CALL asks for room. -/
theorem stackNeverExceedsItsDepth : Obligations.StackNeverExceedsItsDepth := by
  intro s t hfits h
  rcases step_move h with ⟨k, -, -, w, -, ⟨i, -, hexec⟩ | rfl⟩ | ⟨-, ht⟩
  · exact exec_stackFits (s := executeState s k) hfits hexec
  · exact hfits
  · rw [ht]; exact hfits

/-! ### pc -/

/-- pc and the return addresses as an instruction finds them: past a word inside memory. -/
structure PcPastWord (s : State) : Prop where
  two_le : 2 ≤ s.pc.toNat
  le : s.pc.toNat ≤ 0x1000
  stack_le : ∀ w ∈ s.stack, w.toNat ≤ 0x1000

theorem PcPastWord.pcInRange {s : State} (h : PcPastWord s) : s.pcInRange :=
  ⟨h.le.trans (by decide), h.stack_le⟩

theorem PcPastWord.skipIf {s : State} (h : PcPastWord s) (c : Bool) : (s.skipIf c).pcInRange := by
  have hle := h.le
  rw [State.skipIf_eq]
  refine ⟨?_, h.stack_le⟩
  rw [State.setPc_pc]
  split
  · rw [BitVec.toNat_add, BitVec.toNat_ofNat]; omega
  · omega

/-- R26: the highest target is that of BNNN, 0xFFF + 0xFF; CALL pushes at most 0x1000, and LD Vx, K goes back by 2. -/
theorem PcPastWord.exec {i : Instr} {s t : State} (h : PcPastWord s) (hexec : exec i s = .next t) : t.pcInRange := by
  have ⟨hlo, hhi, hstack⟩ := h
  cases i with
  | jp nnn =>
    cases hexec
    have hnnn : (widen nnn).toNat < 4096 := toNat_widen nnn ▸ nnn.isLt
    exact ⟨by rw [State.setPc_pc]; omega, hstack⟩
  | jpV0 nnn =>
    cases hexec
    have hnnn : nnn.toNat < 4096 := nnn.isLt
    have hv : (s.reg (offsetReg s.cfg nnn)).toNat < 256 := (s.reg (offsetReg s.cfg nnn)).isLt
    exact ⟨by rw [State.setPc_pc, toNat_widen_add]; omega, hstack⟩
  | call nnn =>
    obtain ⟨-, rfl⟩ := execCall_next.1 hexec
    have hnnn : (widen nnn).toNat < 4096 := toNat_widen nnn ▸ nnn.isLt
    refine ⟨by rw [State.setPc_pc]; omega, fun w hw => ?_⟩
    rcases List.mem_append.1 hw with hw | hw
    · exact hstack w hw
    · rw [List.mem_singleton.1 hw]; exact hhi
  | ret =>
    obtain ⟨l, w, hs, rfl⟩ := execRet_next.1 hexec
    rw [hs] at hstack
    have hw : w.toNat ≤ 0x1000 := hstack w (by simp)
    exact ⟨hw.trans (by decide), fun w' hw' => hstack w' (List.mem_append_left _ hw')⟩
  | ldVxK x =>
    obtain ⟨-, rfl⟩ | ⟨-, rfl⟩ := execLdVxK_next.1 hexec
    · refine ⟨?_, hstack⟩
      rw [State.setPc_pc, BitVec.toNat_sub, BitVec.toNat_ofNat]
      omega
    · rw [State.countKeyDraw_eq]
      exact h.pcInRange
  | seImm x nn | sneImm x nn | seReg x y | sneReg x y => cases hexec; exact h.skipIf _
  | skp x => obtain ⟨-, rfl⟩ := execSkp_next.1 hexec; exact h.skipIf _
  | sknp x => obtain ⟨-, rfl⟩ := execSknp_next.1 hexec; exact h.skipIf _
  | loose5 x y n =>
    obtain ⟨-, rfl⟩ | ⟨-, rfl⟩ := execLoose5_next.1 hexec
    · exact h.skipIf _
    · exact h.pcInRange
  | loose9 x y n =>
    obtain ⟨-, rfl⟩ | ⟨-, rfl⟩ := execLoose9_next.1 hexec
    · exact h.skipIf _
    · exact h.pcInRange
  | _ => rw [exec_frame hexec]; exact h.pcInRange

/-- A word that can be fetched lies below 0x1000, so pc past it is between 2 and 0x1000. -/
theorem pcPastWord_executeState {s : State} (hrange : s.pcInRange) (hin : s.pc.toNat + 1 < 4096) (k : Nat) :
    PcPastWord (executeState s k) := by
  have hpc : (executeState s k).pc.toNat = s.pc.toNat + 2 := by
    change (s.pc + 2#16).toNat = _
    rw [BitVec.toNat_add, BitVec.toNat_ofNat]
    omega
  exact ⟨by omega, by omega, hrange.2⟩

/-- Settles O57: the only step that moves pc fetches inside memory first. -/
theorem pcStaysInRange : Obligations.PcStaysInRange := by
  intro s t hrange h
  rcases step_move h with ⟨k, -, hin, w, -, ⟨i, -, hexec⟩ | rfl⟩ | ⟨-, ht⟩
  · exact (pcPastWord_executeState hrange hin k).exec hexec
  · exact (pcPastWord_executeState hrange hin k).pcInRange
  · rw [ht]; exact hrange

/-! ### Construction -/

theorem State.construct_pc (c : Config) (l : Launch) : (State.construct c l).pc.toNat = c.programOrigin.val := by
  have horigin := c.programOrigin.isLt
  exact (BitVec.toNat_ofNat _ _).trans (Nat.mod_eq_of_lt (by omega))

/-- Settles O58: the program starts inside memory and no CALL has been made. -/
theorem constructionMeetsTheInvariants : Obligations.ConstructionMeetsTheInvariants := by
  intro c l
  have hpc : (State.construct c l).pc.toNat ≤ 0x10FE := by
    have horigin := c.programOrigin.isLt
    rw [State.construct_pc]
    omega
  exact ⟨State.construct_mem_wf c l, fun _ _ => Nat.zero_le _, hpc, fun _ hw => absurd hw List.not_mem_nil⟩

theorem resetByte_font (c : Config) {a : Nat} (h : c.fontBase.val ≤ a ∧ a < c.fontBase.val + 80) :
    resetByte c a = c.fontData[a - c.fontBase.val]'(by omega) := by
  have hlt : a - c.fontBase.val < 80 := by omega
  rw [resetByte, if_pos h.1]
  simp [hlt]

theorem resetByte_outside_font (c : Config) {a : Nat} (h : ¬ (c.fontBase.val ≤ a ∧ a < c.fontBase.val + 80)) :
    resetByte c a = 0#8 := by
  unfold resetByte
  split
  next hle =>
    have hge : 80 ≤ a - c.fontBase.val := by omega
    simp [hge]
  next => rfl

/-- No byte is listed after construction (R39). -/
theorem State.byteAt_construct (c : Config) (l : Launch) (a : Nat) : (State.construct c l).byteAt a = resetByte c a :=
  rfl

theorem State.pressed_construct (c : Config) (l : Launch) (k : Nibble) : (State.construct c l).pressed k = false :=
  Vector.getElem_replicate _

/-- Settles O1: every byte is its construction contents, every other component the value written out. -/
theorem constructionLeavesListedValues : Obligations.ConstructionLeavesListedValues := fun c l =>
  ⟨_, rfl, fun a h => (State.byteAt_construct c l a).trans (resetByte_font c h),
    fun a h => (State.byteAt_construct c l a).trans (resetByte_outside_font c h), rfl, rfl, rfl, rfl, rfl,
    State.construct_pc c l, rfl, State.pressed_construct c l, Display.pixel_blank, rfl, rfl, rfl⟩

/-! ### The instruction step and the other agents -/

theorem exec_redraw_of_redraw {i : Instr} {s t : State} (h : exec i s = .next t) (hr : s.redraw = true) :
    t.redraw = true := by
  cases i with
  | cls => cases h; rfl
  | drw x y n => obtain ⟨d, hit, -, rfl⟩ := execDrw_next.1 h; rfl
  | _ => rw [(exec_disp_redraw h (by simp) (by simp)).2]; exact hr

/-- A timer changes in an instruction's move only when the word at pc is the instruction that writes it. -/
theorem InstructionMove.timers {s t : State} {k : Nat} (h : InstructionMove s t k) {w : Word} (hw : WordAtPc s w) :
    ((∀ x, decodeWord w ≠ .instr (.ldDtVx x)) → t.dt = s.dt) ∧
    ((∀ x, decodeWord w ≠ .instr (.ldStVx x)) → t.st = s.st) := by
  obtain ⟨-, -, w', hw', ⟨i, hi, hexec⟩ | rfl⟩ := h
  · rw [wordAtPc_unique hw hw', hi]
    exact ⟨fun hdt => (exec_dt hexec fun x hx => hdt x (congrArg _ hx) :),
      fun hst => (exec_st hexec fun x hx => hst x (congrArg _ hx) :)⟩
  · exact ⟨fun _ => rfl, fun _ => rfl⟩

theorem InstructionMove.redraw {s t : State} {k : Nat} (h : InstructionMove s t k) (hr : s.redraw = true) :
    t.redraw = true := by
  obtain ⟨-, -, w, -, ⟨i, -, hexec⟩ | rfl⟩ := h
  · exact exec_redraw_of_redraw (s := executeState s k) hexec hr
  · exact hr

/-- Settles O48: the other agents' components are in the frame of no instruction and of no report. -/
theorem instructionStepsUseUpTheBurst : Obligations.InstructionStepsUseUpTheBurst := by
  intro s t k hp h
  rcases step_move h with ⟨k', hmove⟩ | ⟨hother, -⟩
  · obtain rfl : k = k' := by simpa using hp.symm.trans hmove.1
    have htimers := fun w => hmove.timers (w := w)
    have hredraw := hmove.redraw
    obtain ⟨-, -, w, -, ⟨i, -, hexec⟩ | rfl⟩ := hmove
    · refine ⟨?_, ?_, ?_, ?_, ?_, ?_, ?_, hredraw, htimers⟩ <;> rw [exec_frame hexec] <;> simp [executeState]
    · exact ⟨rfl, rfl, rfl, rfl, rfl, rfl, rfl, hredraw, htimers⟩
  · exact absurd hp (hother k)

/-- Settles O49: a poll at rate 0 starts no burst, and no other move has these components in its frame. -/
theorem noInstructionAtRateZero : Obligations.NoInstructionAtRateZero := by
  intro s t hrate hp h
  obtain ⟨t', ht', -, hrate', hp'⟩ := State.idle_step ⟨(step_next h).1, hrate, hp⟩
  cases h.symm.trans ht'
  refine ⟨hp', hrate', ?_⟩
  rcases step_move h with ⟨k, hk, -⟩ | ⟨-, ht⟩
  · exact absurd hk (hp k)
  · rw [ht]
    exact ⟨rfl, rfl, rfl, rfl, rfl, rfl, rfl⟩

end Sys2Proof.Machine
end
